-- ==== Sys2Proof/Word.lean ====
section
/-! DEFINITION. The word types of the core and its register numbers (spec/00_scope.md R7, spec/30_encoding.md R71). -/

namespace Sys2Proof

/-- An 8-bit register, memory cell or byte immediate (R21, R36, R71). -/
abbrev Byte := BitVec 8

/-- A 16-bit instruction word, PC, I or stack entry (R25, R28, R29, R70). -/
abbrev Word := BitVec 16

/-- The 12-bit address immediate NNN (R71). -/
abbrev Addr12 := BitVec 12

/-- A register number 0x0 to 0xF, or a key number: what a nibble field names (R21, R35, R71). -/
abbrev RegIdx := Fin 16

/-- The row count N of draw, 0 to 15 (R73). -/
abbrev RowCount := Fin 16

/-- The number a nibble of an instruction word stands for. -/
def ofNibble (b : BitVec 4) : Fin 16 := ⟨b.toNat, b.isLt⟩

/-- The nibble that stands for a register number, key number or row count. -/
def toNibble (k : Fin 16) : BitVec 4 := BitVec.ofNatLT k.val k.isLt

@[simp] theorem ofNibble_toNibble (k : Fin 16) : ofNibble (toNibble k) = k := rfl

@[simp] theorem toNibble_ofNibble (b : BitVec 4) : toNibble (ofNibble b) = b := rfl

/-- VF, register 0xF, which doubles as the flag register (R23). -/
def VF : RegIdx := 15

end Sys2Proof
end

