-- ==== Sys2Proof/Syntax.lean ====
section
/-! DEFINITION. The 34 instructions (spec/30_encoding.md R82), their seven formats (R72), and the assembly
lines of R83. An operand is what R73 says it is: a register number, a byte, a 12-bit address, a row count. -/

namespace Sys2Proof

/-- One constructor for each row of the opcode table (R82). -/
inductive Instr
  | clear
  | ret
  | jump (nnn : Addr12)
  | call (nnn : Addr12)
  | skipEqImm (x : RegIdx) (nn : Byte)
  | skipNeqImm (x : RegIdx) (nn : Byte)
  | skipEq (x y : RegIdx)
  | setImm (x : RegIdx) (nn : Byte)
  | addImm (x : RegIdx) (nn : Byte)
  | set (x y : RegIdx)
  | or (x y : RegIdx)
  | and (x y : RegIdx)
  | xor (x y : RegIdx)
  | add (x y : RegIdx)
  | sub (x y : RegIdx)
  | shiftRight (x y : RegIdx)
  | subYx (x y : RegIdx)
  | shiftLeft (x y : RegIdx)
  | skipNeq (x y : RegIdx)
  | setIndex (nnn : Addr12)
  | jumpOffset (nnn : Addr12)
  | random (x : RegIdx) (nn : Byte)
  | draw (x y : RegIdx) (n : RowCount)
  | skipIfKey (x : RegIdx)
  | skipIfNotKey (x : RegIdx)
  | getDelay (x : RegIdx)
  | waitKey (x : RegIdx)
  | setDelay (x : RegIdx)
  | setSound (x : RegIdx)
  | addIndex (x : RegIdx)
  | fontChar (x : RegIdx)
  | bcd (x : RegIdx)
  | store (x : RegIdx)
  | load (x : RegIdx)
  deriving DecidableEq, Repr

/-- The instruction names of R82 and R83. -/
inductive Mnemonic
  | clear | ret | jump | call | skipEqImm | skipNeqImm | skipEq | setImm | addImm
  | set | or | and | xor | add | sub | shiftRight | subYx | shiftLeft
  | skipNeq | setIndex | jumpOffset | random | draw | skipIfKey | skipIfNotKey
  | getDelay | waitKey | setDelay | setSound | addIndex | fontChar | bcd | store | load
  deriving DecidableEq, Repr

/-- The name of an instruction. -/
def Instr.mnemonic : Instr → Mnemonic
  | .clear => .clear
  | .ret => .ret
  | .jump _ => .jump
  | .call _ => .call
  | .skipEqImm _ _ => .skipEqImm
  | .skipNeqImm _ _ => .skipNeqImm
  | .skipEq _ _ => .skipEq
  | .setImm _ _ => .setImm
  | .addImm _ _ => .addImm
  | .set _ _ => .set
  | .or _ _ => .or
  | .and _ _ => .and
  | .xor _ _ => .xor
  | .add _ _ => .add
  | .sub _ _ => .sub
  | .shiftRight _ _ => .shiftRight
  | .subYx _ _ => .subYx
  | .shiftLeft _ _ => .shiftLeft
  | .skipNeq _ _ => .skipNeq
  | .setIndex _ => .setIndex
  | .jumpOffset _ => .jumpOffset
  | .random _ _ => .random
  | .draw _ _ _ => .draw
  | .skipIfKey _ => .skipIfKey
  | .skipIfNotKey _ => .skipIfNotKey
  | .getDelay _ => .getDelay
  | .waitKey _ => .waitKey
  | .setDelay _ => .setDelay
  | .setSound _ => .setSound
  | .addIndex _ => .addIndex
  | .fontChar _ => .fontChar
  | .bcd _ => .bcd
  | .store _ => .store
  | .load _ => .load

/-- The seven instruction formats (R72). -/
inductive Format
  | fixed | nnn | xnn | xy | xys | xyn | xs
  deriving DecidableEq, Repr

/-- An operand of an assembly line (R83): a register by number, a number, or a label. -/
inductive AsmOperand
  | reg (k : Nat)
  | num (n : Nat)
  | label (name : String)
  deriving DecidableEq, Repr

/-- An assembly line (R83): a label, one instruction, or a data directive. -/
inductive AsmLine
  | label (name : String)
  | instr (m : Mnemonic) (ops : List AsmOperand)
  | byte (b : Nat)
  | word (w : Nat)
  deriving DecidableEq, Repr

end Sys2Proof
end

