-- ==== Sys2Proof/WellFormed.lean ====
section
/-! DEFINITION. The checks on what is handed to the core from outside. An `Instr` is well formed by its types: every
register number is below 16, every immediate has its field's width (spec/30_encoding.md R73). An assembly line
(R83) and a program image (spec/20_memory.md R59) carry plain numbers, so they are checked here. -/

namespace Sys2Proof

/-- The format of each instruction (R72, R82). -/
def Mnemonic.format : Mnemonic → Format
  | .clear | .ret => .fixed
  | .jump | .call | .setIndex | .jumpOffset => .nnn
  | .skipEqImm | .skipNeqImm | .setImm | .addImm | .random => .xnn
  | .skipEq | .skipNeq => .xy
  | .set | .or | .and | .xor | .add | .sub | .shiftRight | .subYx | .shiftLeft => .xys
  | .draw => .xyn
  | .skipIfKey | .skipIfNotKey | .getDelay | .waitKey | .setDelay | .setSound | .addIndex
  | .fontChar | .bcd | .store | .load => .xs

/-- The operands an assembly line gives have the kinds and the ranges of the format (R73, R83). A label may stand
only where NNN is expected. -/
def operandsWf : Format → List AsmOperand → Bool
  | .fixed, [] => true
  | .nnn, [.num a] => a < 4096
  | .nnn, [.label _] => true
  | .xnn, [.reg x, .num nn] => x < 16 && nn < 256
  | .xy, [.reg x, .reg y] => x < 16 && y < 16
  | .xys, [.reg x, .reg y] => x < 16 && y < 16
  | .xyn, [.reg x, .reg y, .num n] => x < 16 && y < 16 && n < 16
  | .xs, [.reg x] => x < 16
  | _, _ => false

/-- A well-formed assembly line (R83). -/
def AsmLine.wf : AsmLine → Bool
  | .label _ => true
  | .instr m ops => operandsWf m.format ops
  | .byte b => b < 256
  | .word w => w < 65536

/-- A program image the core accepts: at most 0xE00 bytes (R59, R253). -/
def imageWf (image : List Byte) : Bool := image.length ≤ 0xE00

end Sys2Proof
end

