-- ==== Sys2Proof/Decode.lean ====
section
/-! DEFINITION. The decoder (spec/30_encoding.md R71, R74 to R81), the opcode table it stands for (R82), and the
encoder written from the same formats (R72, R82). -/

namespace Sys2Proof

/-- op = w[15:12] (R71). -/
def opField (w : Word) : BitVec 4 := w.extractLsb' 12 4

/-- X = w[11:8] (R71). -/
def xField (w : Word) : RegIdx := ofNibble (w.extractLsb' 8 4)

/-- Y = w[7:4] (R71). -/
def yField (w : Word) : RegIdx := ofNibble (w.extractLsb' 4 4)

/-- N = w[3:0] (R71). -/
def nField (w : Word) : BitVec 4 := w.extractLsb' 0 4

/-- NN = w[7:0] (R71). -/
def nnField (w : Word) : Byte := w.extractLsb' 0 8

/-- NNN = w[11:0] (R71). -/
def nnnField (w : Word) : Addr12 := w.extractLsb' 0 12

/-- Why no instruction was read. The four `group` reasons are the spec's DecodeError (R75, R76, R77);
`truncated` is fewer than two bytes, which no fetch can give. -/
inductive DecodeReject
  | truncated
  | group0
  | group8
  | groupE
  | groupF
  deriving DecidableEq, Repr

/-- Group 0: exactly the two words 0x00E0 and 0x00EE (R75). -/
def decodeGroup0 (w : Word) : Except DecodeReject Instr :=
  match w with
  | 0x00E0#16 => .ok .clear
  | 0x00EE#16 => .ok .ret
  | _ => .error .group0

/-- Group 8 selects by the last nibble (R76). -/
def decodeGroup8 (w : Word) : Except DecodeReject Instr :=
  let x := xField w
  let y := yField w
  match nField w with
  | 0x0#4 => .ok (.set x y)
  | 0x1#4 => .ok (.or x y)
  | 0x2#4 => .ok (.and x y)
  | 0x3#4 => .ok (.xor x y)
  | 0x4#4 => .ok (.add x y)
  | 0x5#4 => .ok (.sub x y)
  | 0x6#4 => .ok (.shiftRight x y)
  | 0x7#4 => .ok (.subYx x y)
  | 0xE#4 => .ok (.shiftLeft x y)
  | _ => .error .group8

/-- Group E selects by the last byte (R77). -/
def decodeGroupE (w : Word) : Except DecodeReject Instr :=
  let x := xField w
  match nnField w with
  | 0x9E#8 => .ok (.skipIfKey x)
  | 0xA1#8 => .ok (.skipIfNotKey x)
  | _ => .error .groupE

/-- Group F selects by the last byte (R77). -/
def decodeGroupF (w : Word) : Except DecodeReject Instr :=
  let x := xField w
  match nnField w with
  | 0x07#8 => .ok (.getDelay x)
  | 0x0A#8 => .ok (.waitKey x)
  | 0x15#8 => .ok (.setDelay x)
  | 0x18#8 => .ok (.setSound x)
  | 0x1E#8 => .ok (.addIndex x)
  | 0x29#8 => .ok (.fontChar x)
  | 0x33#8 => .ok (.bcd x)
  | 0x55#8 => .ok (.store x)
  | 0x65#8 => .ok (.load x)
  | _ => .error .groupF

/-- Decode(w) of R74. The low nibble of groups 5 and 9 is not examined (R79). The last arm is op = 0xF. -/
def decode (w : Word) : Except DecodeReject Instr :=
  let x := xField w
  let y := yField w
  let nn := nnField w
  let nnn := nnnField w
  match opField w with
  | 0x0#4 => decodeGroup0 w
  | 0x1#4 => .ok (.jump nnn)
  | 0x2#4 => .ok (.call nnn)
  | 0x3#4 => .ok (.skipEqImm x nn)
  | 0x4#4 => .ok (.skipNeqImm x nn)
  | 0x5#4 => .ok (.skipEq x y)
  | 0x6#4 => .ok (.setImm x nn)
  | 0x7#4 => .ok (.addImm x nn)
  | 0x8#4 => decodeGroup8 w
  | 0x9#4 => .ok (.skipNeq x y)
  | 0xA#4 => .ok (.setIndex nnn)
  | 0xB#4 => .ok (.jumpOffset nnn)
  | 0xC#4 => .ok (.random x nn)
  | 0xD#4 => .ok (.draw x y (ofNibble (nField w)))
  | 0xE#4 => decodeGroupE w
  | _ => decodeGroupF w

/-- A word as it lies in memory: the high byte at the lower address (R54, R70). -/
def wordOfBytes (hi lo : Byte) : Word := hi ++ lo

/-- The byte of a word that lies at its lower address. -/
def highByte (w : Word) : Byte := w.extractLsb' 8 8

/-- The byte of a word that lies at its higher address. -/
def lowByte (w : Word) : Byte := w.extractLsb' 0 8

/-- One instruction from a list of bytes, and the bytes after it. Every instruction is two bytes (R70). -/
def decodeBytes : List Byte → Except DecodeReject (Instr × List Byte)
  | hi :: lo :: rest =>
    match decode (wordOfBytes hi lo) with
    | .ok i => .ok (i, rest)
    | .error e => .error e
  | _ => .error .truncated

/-- The instruction the decoder reads from a word numbered as the opcode table numbers it. -/
def decodeTableWord (nbits w : Nat) : Option Instr :=
  if nbits ≤ 16 then
    let word := BitVec.ofNat 16 (w % 2 ^ nbits)
    match decodeBytes [highByte word, lowByte word] with
    | .ok (i, _) => some i
    | .error _ => none
  else none

/-! The seven formats as layouts from bit 15 to bit 0 (R72). -/

/-- Format `NNN`. -/
def layoutNNN (op : BitVec 4) (nnn : Addr12) : Word := op ++ nnn

/-- Format `XNN`, and `XS` with the sub-selector in place of NN. -/
def layoutXNN (op : BitVec 4) (x : RegIdx) (nn : Byte) : Word := op ++ toNibble x ++ nn

/-- Format `XYN`, and `XYS` and `XY` with the sub-selector or 0 in place of N. -/
def layoutXYN (op : BitVec 4) (x y : RegIdx) (n : BitVec 4) : Word :=
  op ++ toNibble x ++ toNibble y ++ n

/-- The canonical word of an instruction (R80, R82); the ignored nibble of `XY` is 0 (R83). -/
def encode : Instr → Word
  | .clear => 0x00E0
  | .ret => 0x00EE
  | .jump nnn => layoutNNN 0x1 nnn
  | .call nnn => layoutNNN 0x2 nnn
  | .skipEqImm x nn => layoutXNN 0x3 x nn
  | .skipNeqImm x nn => layoutXNN 0x4 x nn
  | .skipEq x y => layoutXYN 0x5 x y 0x0
  | .setImm x nn => layoutXNN 0x6 x nn
  | .addImm x nn => layoutXNN 0x7 x nn
  | .set x y => layoutXYN 0x8 x y 0x0
  | .or x y => layoutXYN 0x8 x y 0x1
  | .and x y => layoutXYN 0x8 x y 0x2
  | .xor x y => layoutXYN 0x8 x y 0x3
  | .add x y => layoutXYN 0x8 x y 0x4
  | .sub x y => layoutXYN 0x8 x y 0x5
  | .shiftRight x y => layoutXYN 0x8 x y 0x6
  | .subYx x y => layoutXYN 0x8 x y 0x7
  | .shiftLeft x y => layoutXYN 0x8 x y 0xE
  | .skipNeq x y => layoutXYN 0x9 x y 0x0
  | .setIndex nnn => layoutNNN 0xA nnn
  | .jumpOffset nnn => layoutNNN 0xB nnn
  | .random x nn => layoutXNN 0xC x nn
  | .draw x y n => layoutXYN 0xD x y (toNibble n)
  | .skipIfKey x => layoutXNN 0xE x 0x9E
  | .skipIfNotKey x => layoutXNN 0xE x 0xA1
  | .getDelay x => layoutXNN 0xF x 0x07
  | .waitKey x => layoutXNN 0xF x 0x0A
  | .setDelay x => layoutXNN 0xF x 0x15
  | .setSound x => layoutXNN 0xF x 0x18
  | .addIndex x => layoutXNN 0xF x 0x1E
  | .fontChar x => layoutXNN 0xF x 0x29
  | .bcd x => layoutXNN 0xF x 0x33
  | .store x => layoutXNN 0xF x 0x55
  | .load x => layoutXNN 0xF x 0x65

/-- The two bytes of an instruction as they lie in memory. -/
def encodeBytes (i : Instr) : List Byte := [highByte (encode i), lowByte (encode i)]

/-! The opcode table of R82, as data. -/

/-- All instruction names, in the table's order. -/
def Mnemonic.all : List Mnemonic :=
  [.clear, .ret, .jump, .call, .skipEqImm, .skipNeqImm, .skipEq, .setImm, .addImm, .set, .or, .and,
   .xor, .add, .sub, .shiftRight, .subYx, .shiftLeft, .skipNeq, .setIndex, .jumpOffset, .random, .draw,
   .skipIfKey, .skipIfNotKey, .getDelay, .waitKey, .setDelay, .setSound, .addIndex, .fontChar, .bcd,
   .store, .load]

/-- The table's column `match`. -/
def Mnemonic.matchBits : Mnemonic → Word
  | .clear => 0x00E0
  | .ret => 0x00EE
  | .jump => 0x1000
  | .call => 0x2000
  | .skipEqImm => 0x3000
  | .skipNeqImm => 0x4000
  | .skipEq => 0x5000
  | .setImm => 0x6000
  | .addImm => 0x7000
  | .set => 0x8000
  | .or => 0x8001
  | .and => 0x8002
  | .xor => 0x8003
  | .add => 0x8004
  | .sub => 0x8005
  | .shiftRight => 0x8006
  | .subYx => 0x8007
  | .shiftLeft => 0x800E
  | .skipNeq => 0x9000
  | .setIndex => 0xA000
  | .jumpOffset => 0xB000
  | .random => 0xC000
  | .draw => 0xD000
  | .skipIfKey => 0xE09E
  | .skipIfNotKey => 0xE0A1
  | .getDelay => 0xF007
  | .waitKey => 0xF00A
  | .setDelay => 0xF015
  | .setSound => 0xF018
  | .addIndex => 0xF01E
  | .fontChar => 0xF029
  | .bcd => 0xF033
  | .store => 0xF055
  | .load => 0xF065

/-- The table's column `mask`; it is the format's fixed bits. -/
def Format.mask : Format → Word
  | .fixed => 0xFFFF
  | .nnn => 0xF000
  | .xnn => 0xF000
  | .xy => 0xF000
  | .xys => 0xF00F
  | .xyn => 0xF000
  | .xs => 0xF0FF

/-- The word matches the table's row of this name: `w & mask == match` (R82). -/
def Mnemonic.rowMatches (m : Mnemonic) (w : Word) : Bool := w &&& m.format.mask == m.matchBits

/-- The word with the bits its format ignores cleared: the canonical spelling of a word that decodes (R80). -/
def canonicalWord (w : Word) : Word :=
  if opField w = 0x5 ∨ opField w = 0x9 then w &&& 0xFFF0 else w

end Sys2Proof
end

