-- ==== Sys2Proof/Config.lean ====
section
/-! DEFINITION. What is fixed for one core: its four parameters (spec/00_scope.md R8), the default font
(spec/20_memory.md R57), and the one free value of the model, the random byte (spec/10_state.md R40). -/

namespace Sys2Proof

/-- How add-index decides to set VF (R8, R172, decision D4). -/
inductive Config.AddIndexFlag
  | range12
  | carry8
  deriving DecidableEq, Repr

/-- The default font, glyph 0 to glyph F, five rows each, top row first (R57, decision D12: the spec marks
these bytes as general knowledge; they are only the default of the parameter FONT). -/
def Config.defaultGlyphs : List (List Byte) :=
  [[0xF0, 0x90, 0x90, 0x90, 0xF0], [0x20, 0x60, 0x20, 0x20, 0x70],
   [0xF0, 0x10, 0xF0, 0x80, 0xF0], [0xF0, 0x10, 0xF0, 0x10, 0xF0],
   [0x90, 0x90, 0xF0, 0x10, 0x10], [0xF0, 0x80, 0xF0, 0x10, 0xF0],
   [0xF0, 0x80, 0xF0, 0x90, 0xF0], [0xF0, 0x10, 0x20, 0x40, 0x40]] ++
  [[0xF0, 0x90, 0xF0, 0x90, 0xF0], [0xF0, 0x90, 0xF0, 0x10, 0xF0],
   [0xF0, 0x90, 0xF0, 0x90, 0x90], [0xE0, 0x90, 0xE0, 0x90, 0xE0],
   [0xF0, 0x80, 0x80, 0x80, 0xF0], [0xE0, 0x90, 0x90, 0x90, 0xE0],
   [0xF0, 0x80, 0xF0, 0x80, 0xF0], [0xF0, 0x80, 0xF0, 0x80, 0x80]]

/-- The 80 bytes of the default FONT (R57). -/
def Config.defaultFont : Vector Byte 80 := ⟨Config.defaultGlyphs.flatten.toArray, rfl⟩

/-- The four parameters of a core, fixed for its life (R8). -/
structure Config.Params where
  /-- STACK_DEPTH: `none` is unbounded; `some n` enables StackOverflow at n entries (decision D10). -/
  stackDepth : Option Nat
  /-- FONT: the contents of 0x050 to 0x09F at reset (decision D12). -/
  font : Vector Byte 80
  /-- FONT_WRITE_PROTECT: whether a data write to 0x050 to 0x09F is discarded (decision D11). -/
  fontWriteProtect : Bool
  /-- ADD_INDEX_FLAG: the condition under which add-index sets VF (decision D4). -/
  addIndexFlag : Config.AddIndexFlag
  deriving DecidableEq, Repr

/-- The defaults of R8. -/
def Config.Params.default : Config.Params where
  stackDepth := none
  font := Config.defaultFont
  fontWriteProtect := true
  addIndexFlag := .range12

/-- THE FREE VALUE of the model: the n-th random byte the host supplies without the model naming it
(R40 takes it "as a free input of the step, with no law on its distribution"). It has no body: nothing can
be proved of its values (notes/assumptions/1.md). -/
opaque Config.randomByte : Nat → Byte

end Sys2Proof
end

