-- ==== Sys2Proof/Machine/State.lean ====
section
/-! DEFINITION. The state of the core (spec/10_state.md R20), its reset values (R41), and the reasons a step may
stop. Every field is plain data. -/

namespace Sys2Proof.Machine

/-- M as the sorted list of the cells that differ from what an unlisted address reads as
(notes/assumptions/7.md); `Memory.wf` in Ops.lean is its canonical form. -/
abbrev Memory := List Host.Cell

/-- D, 32 rows of 64 cells, row 0 at the top, column 0 at the left (R34). -/
abbrev Display := Vector (Vector Bool 64) 32

/-- K, one boolean for each key (R35). -/
abbrev Keys := Vector Bool 16

/-- CFG, the three configuration booleans (R9, R31). -/
structure Cfg where
  /-- SHIFT_VY, bit 0. -/
  shiftVy : Bool
  /-- JUMP_VX, bit 1. -/
  jumpVx : Bool
  /-- LS_INC, bit 2. -/
  lsInc : Bool
  deriving DecidableEq, Repr

/-- FAULT.KIND (R32, R220). -/
inductive FaultKind
  | none
  | decodeError
  | stackUnderflow
  | stackOverflow
  deriving DecidableEq, Repr

/-- FAULT, the fault record (R32): what halted the core, the faulting word, and the address it was fetched from. -/
structure FaultRecord where
  kind : FaultKind
  word : Word
  fpc : Word
  deriving DecidableEq, Repr

/-- The record of a core that has not faulted (R32). -/
def FaultRecord.clear : FaultRecord where
  kind := .none
  word := 0
  fpc := 0

/-- The state of the core (R20), with the display-changed output of the last cycle (R33), the instance
parameters (R8), and the model's own two fields for the random byte (notes/assumptions/1.md). -/
structure State where
  /-- V0 to VF (R21). -/
  v : Vector Byte 16
  /-- The index register I (R28). -/
  i : Word
  /-- The program counter (R25). -/
  pc : Word
  /-- The call stack S, its top first (R29, notes/assumptions/6.md). -/
  stack : List Word
  /-- The delay timer DT (R30). -/
  dt : Byte
  /-- The sound timer ST (R30). -/
  st : Byte
  /-- The memory M (R36). -/
  mem : Memory
  /-- The display buffer D (R34). -/
  display : Display
  /-- The key state K, as the host last wrote it (R35). -/
  keys : Keys
  /-- The configuration register CFG (R31). -/
  cfg : Cfg
  /-- The fault record FAULT (R32). -/
  fault : FaultRecord
  /-- The output DC of the last cycle (R33, notes/assumptions/3.md). -/
  dc : Bool
  /-- The instance parameters (R8, notes/assumptions/2.md). -/
  params : Config.Params
  /-- The model's own: the random byte of the cycle under way, where the host's STEP names it (R40). -/
  rnd : Option Byte
  /-- The model's own: how many random bytes have been drawn without a name (R40). -/
  draws : Nat
  deriving DecidableEq, Repr

/-- Why a step stops with a fault. There is no such reason, so there is no constructor: "No other operation raises an
error" (R220), every address reaches a cell (R51), and the three faults of R220 are states the core
passes into (R222), not stops of the model (notes/assumptions/5.md). Nobody raises one, which is safe. -/
inductive Fault
  deriving DecidableEq, Repr

/-- Why the model gives no meaning. -/
inductive Refusal
  /-- Raised by `exec`, for an instruction whose meaning is not written; no arm does. Safe. -/
  | notModelled (mnemonic : String)
  /-- Raised by the host's RESET alone, for an image of more than 0xE00 bytes: "not accepted by RESET" (R253). Safe. -/
  | imageTooLarge (length : Nat)
  deriving DecidableEq, Repr

/-- The state right after reset (R41), with the default parameters (R8), CFG all false (R9) and an empty program image
(notes/assumptions/8.md). -/
def State.reset : State where
  v := Vector.replicate 16 0
  i := 0
  pc := 0x200
  stack := []
  dt := 0
  st := 0
  mem := []
  display := Vector.replicate 32 (Vector.replicate 64 false)
  keys := Vector.replicate 16 false
  cfg := { shiftVy := false, jumpVx := false, lsInc := false }
  fault := .clear
  dc := false
  params := .default
  rnd := none
  draws := 0

end Sys2Proof.Machine
end

