-- ==== Sys2Proof/Machine/Ops.lean ====
section
/-! DEFINITION. The named operations over memory, registers, stack, display and random input; the fetch; raising a
fault; and the construction of the core. -/

namespace Sys2Proof.Machine

/-- What one step of the core answers. -/
abbrev Outcome := Host.Outcome State Fault Refusal

/-! ## Memory (spec/20_memory.md) -/

/-- The memory address port is 12 bits wide: every address is reduced modulo 4096 (R51). -/
def portAddr (addr : Nat) : Nat := addr % 4096

/-- 0x050 to 0x09F, where the font lies (R57, R58). -/
def inFontRegion (a : Nat) : Bool := 0x050 ≤ a && a ≤ 0x09F

/-- What an unlisted address reads as: the reset contents of a core with the default FONT and an empty image, the
font in its region and 0 elsewhere (R41, R57, notes/assumptions/7.md). -/
def Memory.background (a : Nat) : Byte :=
  if inFontRegion a then Config.defaultFont.toList.getD (a - 0x050) 0 else 0

/-- The cell at a reduced address. -/
def Memory.cell : Memory → Nat → Byte
  | [], a => Memory.background a
  | (b, u) :: m, a => if a = b then u else Memory.cell m a

/-- The cells without the one at an address. -/
def Memory.erase : Memory → Nat → Memory
  | [], _ => []
  | (b, u) :: m, a => if a = b then m else (b, u) :: Memory.erase m a

/-- The cells with the one at an address holding a value, in rising order of address. -/
def Memory.insert : Memory → Nat → Byte → Memory
  | [], a, x => [(a, x)]
  | (b, u) :: m, a, x =>
    if a < b then (a, x) :: (b, u) :: m
    else if a = b then (a, x) :: m
    else (b, u) :: Memory.insert m a x

/-- The memory with one cell changed, in canonical form: the value an unlisted address reads as is not listed. -/
def Memory.setCell (m : Memory) (a : Nat) (x : Byte) : Memory :=
  if x = Memory.background a then m.erase a else m.insert a x

/-- The canonical form: addresses below 4096 (R50) and strictly rising, and no cell listed that holds what an unlisted
address reads as. -/
def Memory.wf : Memory → Bool
  | [] => true
  | (a, x) :: m =>
    decide (a < 4096) && decide (x ≠ Memory.background a) && m.all (fun c => decide (a < c.1)) && Memory.wf m

/-- MemRead(addr, 1) of R52. -/
def State.readByte (s : State) (addr : Nat) : Byte := s.mem.cell (portAddr addr)

/-- MemRead(addr, 2) of R52: big-endian, the second address wrapping from 0xFFF to 0x000. -/
def State.readWord (s : State) (addr : Nat) : Word :=
  wordOfBytes (s.readByte addr) (s.readByte (addr + 1))

/-- Whether a data write to this address is discarded (R53). -/
def State.writeDiscarded (s : State) (addr : Nat) : Bool :=
  s.params.fontWriteProtect && inFontRegion (portAddr addr)

/-- A cell of memory set directly, past the font protection: what RESET does (R66). -/
def State.pokeByte (s : State) (addr : Nat) (x : Byte) : State :=
  { s with mem := s.mem.setCell (portAddr addr) x }

/-- MemWrite(addr, 1, v) of R53: a write into the font region is discarded under FONT_WRITE_PROTECT, with no fault. -/
def State.writeByte (s : State) (addr : Nat) (x : Byte) : State :=
  if s.writeDiscarded addr then s else s.pokeByte addr x

/-! ## Registers, program counter, stack, timers (spec/10_state.md) -/

/-- V[k] (R21). -/
def State.reg (s : State) (k : RegIdx) : Byte := s.v[k.val]

/-- `V[k] <- x` (R21). -/
def State.setReg (s : State) (k : RegIdx) (x : Byte) : State := { s with v := s.v.set k.val x }

/-- `I <- x` (R28). -/
def State.setIndex (s : State) (x : Word) : State := { s with i := x }

/-- `PC <- target` (R25). -/
def State.setPc (s : State) (x : Word) : State := { s with pc := x }

/-- `push(S, x)` (R29). -/
def State.push (s : State) (x : Word) : State := { s with stack := x :: s.stack }

/-- The stack without its top (R29). -/
def State.dropTop (s : State) : State := { s with stack := s.stack.tail }

/-- A push would pass the bound: `STACK_DEPTH == some n and len(S) == n` (R29, R103). -/
def State.stackFull (s : State) : Bool := s.params.stackDepth == some s.stack.length

/-- `DT <- x` (R30). -/
def State.setDelay (s : State) (x : Byte) : State := { s with dt := x }

/-- `ST <- x` (R30). -/
def State.setSound (s : State) (x : Byte) : State := { s with st := x }

/-- `DC <- x` (R33). -/
def State.setDc (s : State) (x : Bool) : State := { s with dc := x }

/-- The skip of R26: `PC <- (PC + 2) mod 2^16` when the condition holds. -/
def State.skipIf (s : State) (c : Bool) : State := if c then s.setPc (s.pc + 2) else s

/-- SOUND_ON, equal to `ST ≠ 0` at all times (R39). -/
def State.soundOn (s : State) : Bool := s.st != 0

/-- CFG from its three bits (R31). -/
def Cfg.ofBits (b : BitVec 3) : Cfg where
  shiftVy := b.getLsbD 0
  jumpVx := b.getLsbD 1
  lsInc := b.getLsbD 2

/-- CFG as its three bits (R31). -/
def Cfg.toBits (c : Cfg) : BitVec 3 :=
  BitVec.ofBool c.lsInc ++ BitVec.ofBool c.jumpVx ++ BitVec.ofBool c.shiftVy

/-- The 2-bit code of FAULT.KIND (R32, R220). -/
def FaultKind.code : FaultKind → BitVec 2
  | .none => 0
  | .decodeError => 1
  | .stackUnderflow => 2
  | .stackOverflow => 3

/-! ## Display (R34) -/

/-- D[y][x]. -/
def Display.pixel (d : Display) (y : Fin 32) (x : Fin 64) : Bool := d[y.val][x.val]

/-- `D[y][x] <- b`. -/
def Display.setPixel (d : Display) (y : Fin 32) (x : Fin 64) (b : Bool) : Display :=
  d.set y.val (d[y.val].set x.val b)

/-- The display with no cell lit. -/
def Display.blank : Display := Vector.replicate 32 (Vector.replicate 64 false)

/-- `D <- d`. -/
def State.setDisplay (s : State) (d : Display) : State := { s with display := d }

/-! ## The random byte (R40) -/

/-- rnd: the byte the host's STEP names, else a free value (notes/assumptions/1.md). -/
def State.randomByte (s : State) : Byte :=
  match s.rnd with
  | some b => b
  | none => Config.randomByte s.draws

/-- The random byte is used up: no later cycle reads it again. -/
def State.consumeRandom (s : State) : State :=
  match s.rnd with
  | some _ => { s with rnd := none }
  | none => { s with draws := s.draws + 1 }

/-! ## The cycle (spec/70_reset_and_hazards.md R262) and faults (spec/60_exceptions.md) -/

/-- The core is halted: `FAULT.KIND ≠ 0` (R38). -/
def State.halted (s : State) : Bool := s.fault.kind != .none

/-- The fetched word: `MemRead(PC, 2)` (R52, R262). -/
def State.fetchWord (s : State) : Word := s.readWord s.pc.toNat

/-- The state an instruction's rule starts from: the fetch has advanced PC by 2 (R25), and DC is 0 (R262). -/
def State.afterFetch (s : State) : State := (s.setPc (s.pc + 2)).setDc false

/-- A cycle requested while halted: nothing changes and DC is 0 (R223). -/
def State.haltedCycle (s : State) : State := s.setDc false

/-- TAKING A FAULT, `raise E(w, a)` of R222: the kind, the faulting word and its address are recorded (R221), DC is 0,
and the cycle ends with no further change; the core is halted from then on (R223). No mode, mask, stack or
program counter changes, and control goes to no handler (R225). There is no return from a fault (R226): only
RESET, `construct` below, clears the record. -/
def raiseFault (kind : FaultKind) (w a : Word) (s : State) : Outcome :=
  .next { s with fault := { kind := kind, word := w, fpc := a }, dc := false }

/-- The address the current instruction was fetched from, seen after the fetch: PC holds `(a + 2) mod 2^16` (R25). -/
def State.fetchAddr (s : State) : Word := s.pc - 2

/-! ## Construction (R250) -/

/-- Bytes laid into memory from an address up, directly (R66, R250). -/
def Memory.lay (m : Memory) (a : Nat) : List Byte → Memory
  | [] => m
  | x :: xs => Memory.lay (m.setCell (portAddr a) x) (a + 1) xs

/-- M after RESET: 0 everywhere, then FONT, then the image (R250). The 0 cells and a default FONT are what an unlisted
address reads as, so the memory starts as the empty list. -/
def resetMemory (p : Config.Params) (image : List Byte) : Memory :=
  Memory.lay (Memory.lay [] 0x050 p.font.toList) 0x200 image

/-- RESET(cfg, image) on a core with the given parameters (R250). An image over 0xE00 bytes is not accepted (R253).
`draws` is the model's own counter, which a reset does not turn back (notes/assumptions/1.md). -/
def construct (p : Config.Params) (cfg : Cfg) (image : List Byte) (draws : Nat) : Outcome :=
  if imageWf image then
    .next
      { v := Vector.replicate 16 0
        i := 0
        pc := 0x200
        stack := []
        dt := 0
        st := 0
        mem := resetMemory p image
        display := Display.blank
        keys := Vector.replicate 16 false
        cfg := cfg
        fault := .clear
        dc := false
        params := p
        rnd := none
        draws := draws }
  else .refused (.imageTooLarge image.length)

end Sys2Proof.Machine
end

