-- ==== Sys2Proof/Machine/Flags.lean ====
section
/-! DEFINITION. Every computation of the flag VF (spec/10_state.md R23): carry, the two strict comparisons, and the index
overflow. The draw's collision flag is computed with the drawing, in IoDisplayTimers.lean. -/

namespace Sys2Proof.Machine

/-- A flag outcome as VF's value, 0 or 1 (R130). -/
def flagByte (c : Bool) : Byte := if c then 1 else 0

/-- The carry of add: the unsigned sum exceeds 255 (R138). -/
def addCarry (x y : Byte) : Bool := x.toNat + y.toNat > 255

/-- The flag of the subtractions: strictly greater, so 0 when equal (R139, R141). -/
def strictlyGreater (x y : Byte) : Bool := x.toNat > y.toNat

/-- The condition under which add-index sets VF (R172). -/
def indexOverflow (mode : Config.AddIndexFlag) (i : Word) (x : Byte) : Bool :=
  match mode with
  | .range12 => i.toNat + x.toNat > 0x0FFF
  | .carry8 => i.toNat % 256 + x.toNat > 0xFF

/-- VX written first and VF last, so that VF holds the flag when X = 0xF (R131). -/
def State.setRegAndFlag (s : State) (x : RegIdx) (result : Byte) (c : Bool) : State :=
  (s.setReg x result).setReg VF (flagByte c)

/-- VF set to 1 under a condition and otherwise unchanged (R172). -/
def State.raiseFlagIf (s : State) (c : Bool) : State := if c then s.setReg VF 1 else s

end Sys2Proof.Machine
end

