-- ==== Sys2Proof/Machine/Operands.lean ====
section
/-! DEFINITION. The operand forms of the instructions: zero-extended addresses (spec/30_encoding.md R73), the one data
addressing mode (spec/42_memory_index.md R170), the sources CFG selects (R108, R140), key numbers (R191),
glyph addresses (R173), draw coordinates (R193), and blocks of registers (R175, R176). -/

namespace Sys2Proof.Machine

/-- `zext_16(NNN)` (R73). -/
def zext16 (nnn : Addr12) : Word := nnn.zeroExtend 16

/-- The address `I + k` of the one data addressing mode; MemRead and MemWrite reduce it modulo 4096 (R170). -/
def State.dataAddr (s : State) (k : Nat) : Nat := s.i.toNat + k

/-- What a shift shifts: VY when CFG.SHIFT_VY, else VX (R140, R142). -/
def State.shiftSource (s : State) (x y : RegIdx) : Byte :=
  if s.cfg.shiftVy then s.reg y else s.reg x

/-- The register jump-offset adds: that of w[11:8] when CFG.JUMP_VX, else V0 (R108). -/
def State.jumpReg (s : State) (nnn : Addr12) : RegIdx :=
  if s.cfg.jumpVx then ofNibble (nnn.extractLsb' 8 4) else 0

/-- The low four bits of a register's value: the number of a key (R191) or of a glyph (R173). -/
def lowNibble (b : Byte) : Fin 16 := ofNibble (b.extractLsb' 0 4)

/-- `K[V[X] & 0xF]` (R191). -/
def State.keyDown (s : State) (x : RegIdx) : Bool := s.keys[(lowNibble (s.reg x)).val]

/-- The first pressed key, from 0x0 upward (R196). -/
def State.firstKey (s : State) : Option RegIdx :=
  (List.finRange 16).find? (fun k => s.keys[k.val])

/-- A key number as a register's value (R196). -/
def keyValue (k : RegIdx) : Byte := BitVec.ofNat 8 k.val

/-- `0x050 + 5 * d`, where glyph d starts (R57, R173). -/
def glyphAddr (d : Fin 16) : Word := BitVec.ofNat 16 (0x050 + 5 * d.val)

/-- The draw's first column, `V[X] mod 64` (R193). -/
def State.drawX (s : State) (x : RegIdx) : Nat := (s.reg x).toNat % 64

/-- The draw's first row, `V[Y] mod 32` (R193). -/
def State.drawY (s : State) (y : RegIdx) : Nat := (s.reg y).toNat % 32

/-- V0 to VX inclusive, in ascending order (R175, R176). -/
def regsUpTo (x : RegIdx) : List RegIdx := (List.finRange 16).filter (fun k => k.val ≤ x.val)

/-- The three decimal digits of a byte, hundreds first (R174). -/
def bcdDigits (b : Byte) : Byte × Byte × Byte :=
  (BitVec.ofNat 8 (b.toNat / 100), BitVec.ofNat 8 (b.toNat / 10 % 10), BitVec.ofNat 8 (b.toNat % 10))

/-- I after a block of X + 1 bytes: advanced when CFG.LS_INC, else unchanged (R175, R176). -/
def State.blockEnd (s : State) (x : RegIdx) : Word :=
  if s.cfg.lsInc then s.i + BitVec.ofNat 16 (x.val + 1) else s.i

end Sys2Proof.Machine
end

