-- ==== Sys2Proof/Machine/Arithmetic.lean ====
section
/-! DEFINITION. The register arithmetic, logic, shift and random instructions (spec/41_arithmetic_logic.md). All operands
are read before any register is written, and VF is written last (R131). -/

namespace Sys2Proof.Machine

/-- set-imm 6XNN (R132). -/
def execSetImm (x : RegIdx) (nn : Byte) (s : State) : Outcome := .next (s.setReg x nn)

/-- add-imm 7XNN: VF is not a carry here (R133). -/
def execAddImm (x : RegIdx) (nn : Byte) (s : State) : Outcome := .next (s.setReg x (s.reg x + nn))

/-- set 8XY0 (R134). -/
def execSet (x y : RegIdx) (s : State) : Outcome := .next (s.setReg x (s.reg y))

/-- or 8XY1: VF is not reset (R135). -/
def execOr (x y : RegIdx) (s : State) : Outcome := .next (s.setReg x (s.reg x ||| s.reg y))

/-- and 8XY2: VF is not reset (R136). -/
def execAnd (x y : RegIdx) (s : State) : Outcome := .next (s.setReg x (s.reg x &&& s.reg y))

/-- xor 8XY3: VF is not reset (R137). -/
def execXor (x y : RegIdx) (s : State) : Outcome := .next (s.setReg x (s.reg x ^^^ s.reg y))

/-- add 8XY4 (R138). -/
def execAdd (x y : RegIdx) (s : State) : Outcome :=
  .next (s.setRegAndFlag x (s.reg x + s.reg y) (addCarry (s.reg x) (s.reg y)))

/-- sub 8XY5 (R139). -/
def execSub (x y : RegIdx) (s : State) : Outcome :=
  .next (s.setRegAndFlag x (s.reg x - s.reg y) (strictlyGreater (s.reg x) (s.reg y)))

/-- shift-right 8XY6: the bit shifted out is recorded nowhere (R140). -/
def execShiftRight (x y : RegIdx) (s : State) : Outcome := .next (s.setReg x (s.shiftSource x y >>> 1))

/-- sub-yx 8XY7 (R141). -/
def execSubYx (x y : RegIdx) (s : State) : Outcome :=
  .next (s.setRegAndFlag x (s.reg y - s.reg x) (strictlyGreater (s.reg y) (s.reg x)))

/-- shift-left 8XYE: the bit shifted out is recorded nowhere (R142). -/
def execShiftLeft (x y : RegIdx) (s : State) : Outcome := .next (s.setReg x (s.shiftSource x y <<< 1))

/-- random CXNN (R143). -/
def execRandom (x : RegIdx) (nn : Byte) (s : State) : Outcome :=
  .next (s.consumeRandom.setReg x (nn &&& s.randomByte))

end Sys2Proof.Machine
end

