-- ==== Sys2Proof/Machine/ControlFlow.lean ====
section
/-! DEFINITION. The control flow instructions (spec/40_control_flow.md). PC holds `(a + 2) mod 2^16` when a meaning
starts (R25), a the fetch address. -/

namespace Sys2Proof.Machine

/-- return 00EE (R101). -/
def execRet (s : State) : Outcome :=
  match s.stack with
  | [] => raiseFault .stackUnderflow (encode .ret) s.fetchAddr s
  | top :: _ => .next (s.dropTop.setPc top)

/-- jump 1NNN (R102). -/
def execJump (nnn : Addr12) (s : State) : Outcome := .next (s.setPc (zext16 nnn))

/-- call 2NNN (R103). -/
def execCall (nnn : Addr12) (s : State) : Outcome :=
  if s.stackFull then raiseFault .stackOverflow (encode (.call nnn)) s.fetchAddr s
  else .next ((s.push s.pc).setPc (zext16 nnn))

/-- skip-eq-imm 3XNN (R104). -/
def execSkipEqImm (x : RegIdx) (nn : Byte) (s : State) : Outcome := .next (s.skipIf (s.reg x == nn))

/-- skip-neq-imm 4XNN (R105). -/
def execSkipNeqImm (x : RegIdx) (nn : Byte) (s : State) : Outcome := .next (s.skipIf (s.reg x != nn))

/-- skip-eq 5XY0 (R106). -/
def execSkipEq (x y : RegIdx) (s : State) : Outcome := .next (s.skipIf (s.reg x == s.reg y))

/-- skip-neq 9XY0 (R107). -/
def execSkipNeq (x y : RegIdx) (s : State) : Outcome := .next (s.skipIf (s.reg x != s.reg y))

/-- jump-offset BNNN (R108). -/
def execJumpOffset (nnn : Addr12) (s : State) : Outcome :=
  .next (s.setPc (zext16 nnn + (s.reg (s.jumpReg nnn)).zeroExtend 16))

end Sys2Proof.Machine
end

