-- ==== Sys2Proof/Machine/IoDisplayTimers.lean ====
section
/-! DEFINITION. The display, key and timer instructions (spec/43_io_display_timers.md). -/

namespace Sys2Proof.Machine

/-- One sprite bit on one display cell, with the collision so far: a set bit turns a lit cell off and records a
collision, or lights a dark one; a clear bit changes nothing (R193). -/
def plot (y : Fin 32) (x : Fin 64) (bit : Bool) (c : Display × Bool) : Display × Bool :=
  if bit then
    if c.1.pixel y x then (c.1.setPixel y x false, true) else (c.1.setPixel y x true, c.2)
  else c

/-- One sprite row: the columns of the list in order, leaving the row at column 63 (R193). Bit 7 is column 0. -/
def drawRow (y : Fin 32) (x0 : Nat) (b : Byte) : List Nat → Display × Bool → Display × Bool
  | [], c => c
  | k :: ks, c =>
    if h : x0 + k < 64 then drawRow y x0 b ks (plot y ⟨x0 + k, h⟩ (b.getLsbD (7 - k)) c) else c

/-- The sprite's rows of the list in order, leaving at row 31; row r is the byte at `I + r` (R193). -/
def State.drawRows (s : State) (x0 y0 : Nat) : List Nat → Display × Bool → Display × Bool
  | [], c => c
  | r :: rs, c =>
    if h : y0 + r < 32 then
      State.drawRows s x0 y0 rs (drawRow ⟨y0 + r, h⟩ x0 (s.readByte (s.dataAddr r)) (List.range 8) c)
    else c

/-- clear 00E0 (R192). -/
def execClear (s : State) : Outcome := .next ((s.setDisplay Display.blank).setDc true)

/-- draw DXYN (R193): the coordinates are read before VF is cleared, and VF ends as the collision. -/
def execDraw (x y : RegIdx) (n : RowCount) (s : State) : Outcome :=
  let c := s.drawRows (s.drawX x) (s.drawY y) (List.range n.val) (s.display, false)
  .next (((s.setDisplay c.1).setReg VF (flagByte c.2)).setDc true)

/-- skip-if-key EX9E (R194). -/
def execSkipIfKey (x : RegIdx) (s : State) : Outcome := .next (s.skipIf (s.keyDown x))

/-- skip-if-not-key EXA1 (R195). -/
def execSkipIfNotKey (x : RegIdx) (s : State) : Outcome := .next (s.skipIf (!s.keyDown x))

/-- wait-key FX0A (R196): with no key pressed PC goes back by 2, so the same word is fetched next. -/
def execWaitKey (x : RegIdx) (s : State) : Outcome :=
  match s.firstKey with
  | none => .next (s.setPc (s.pc - 2))
  | some k => .next (s.setReg x (keyValue k))

/-- get-delay FX07 (R197). -/
def execGetDelay (x : RegIdx) (s : State) : Outcome := .next (s.setReg x s.dt)

/-- set-delay FX15 (R198). -/
def execSetDelay (x : RegIdx) (s : State) : Outcome := .next (s.setDelay (s.reg x))

/-- set-sound FX18 (R199). -/
def execSetSound (x : RegIdx) (s : State) : Outcome := .next (s.setSound (s.reg x))

end Sys2Proof.Machine
end

