-- ==== Sys2Proof/Machine/MemoryIndex.lean ====
section
/-! DEFINITION. The index register and memory instructions (spec/42_memory_index.md). -/

namespace Sys2Proof.Machine

/-- V0..VX, written to memory from an address up, one byte each (R175). -/
def State.storeRegs (s : State) (base : Nat) : List RegIdx → State
  | [] => s
  | k :: ks => State.storeRegs (s.writeByte (base + k.val) (s.reg k)) base ks

/-- V0..VX, read from memory from an address up, one byte each (R176). -/
def State.loadRegs (s : State) (base : Nat) : List RegIdx → State
  | [] => s
  | k :: ks => State.loadRegs (s.setReg k (s.readByte (base + k.val))) base ks

/-- set-index ANNN (R171). -/
def execSetIndex (nnn : Addr12) (s : State) : Outcome := .next (s.setIndex (zext16 nnn))

/-- add-index FX1E (R172). -/
def execAddIndex (x : RegIdx) (s : State) : Outcome :=
  .next ((s.setIndex (s.i + (s.reg x).zeroExtend 16)).raiseFlagIf
    (indexOverflow s.params.addIndexFlag s.i (s.reg x)))

/-- font-char FX29 (R173). -/
def execFontChar (x : RegIdx) (s : State) : Outcome := .next (s.setIndex (glyphAddr (lowNibble (s.reg x))))

/-- bcd FX33 (R174). -/
def execBcd (x : RegIdx) (s : State) : Outcome :=
  let d := bcdDigits (s.reg x)
  .next (((s.writeByte (s.dataAddr 0) d.1).writeByte (s.dataAddr 1) d.2.1).writeByte (s.dataAddr 2) d.2.2)

/-- store FX55 (R175). -/
def execStore (x : RegIdx) (s : State) : Outcome :=
  .next ((s.storeRegs (s.dataAddr 0) (regsUpTo x)).setIndex (s.blockEnd x))

/-- load FX65 (R176). -/
def execLoad (x : RegIdx) (s : State) : Outcome :=
  .next ((s.loadRegs (s.dataAddr 0) (regsUpTo x)).setIndex (s.blockEnd x))

end Sys2Proof.Machine
end

