-- ==== Sys2Proof/Machine/Step.lean ====
section
/-! DEFINITION. The cycle of spec/70_reset_and_hazards.md R262, the core's only step. -/

namespace Sys2Proof.Machine

/-- One cycle (R262). A halted core changes nothing but DC (R223). Else the word at PC is fetched and PC advanced (R25),
the word decoded (R74), and either DecodeError raised (R222) or the instruction executed. The fetched word is
held in `w` for the cycle alone, as the latch IR is (R37). -/
def step (s : State) : Host.Outcome State Fault Refusal :=
  if s.halted then .next s.haltedCycle
  else
    let w := s.fetchWord
    match decode w with
    | .error _ => raiseFault .decodeError w s.pc s.afterFetch
    | .ok i => exec i s.afterFetch

/-- The state with an instruction word stored where the next cycle fetches: at PC and the address after it, past the font
protection, as RESET stores a program (R66). A halted core fetches nothing (R223), so the fault record is cleared
(notes/assumptions/8.md). -/
def State.withFetchWord (s : State) (nbits w : Nat) : State :=
  let word := BitVec.ofNat 16 (w % 2 ^ nbits)
  let t := (s.pokeByte s.pc.toNat (highByte word)).pokeByte (s.pc.toNat + 1) (lowByte word)
  if s.halted then { t with fault := .clear } else t

end Sys2Proof.Machine
end

