-- ==== Sys2Proof/Machine/Assembler.lean ====
section
/-! DEFINITION. The assembly language of spec/30_encoding.md R83: reading a line's text, and assembling lines into the bytes
of a program image. Each mnemonic gives exactly one word and there is no pseudo-instruction (R84). It is no part
of the core (decision D18); no step reads it. -/

namespace Sys2Proof.Machine

/-- The spelling of each mnemonic (R82, R83). -/
def mnemonicText : Mnemonic → String
  | .clear => "clear"
  | .ret => "return"
  | .jump => "jump"
  | .call => "call"
  | .skipEqImm => "skip-eq-imm"
  | .skipNeqImm => "skip-neq-imm"
  | .skipEq => "skip-eq"
  | .setImm => "set-imm"
  | .addImm => "add-imm"
  | .set => "set"
  | .or => "or"
  | .and => "and"
  | .xor => "xor"
  | .add => "add"
  | .sub => "sub"
  | .shiftRight => "shift-right"
  | .subYx => "sub-yx"
  | .shiftLeft => "shift-left"
  | .skipNeq => "skip-neq"
  | .setIndex => "set-index"
  | .jumpOffset => "jump-offset"
  | .random => "random"
  | .draw => "draw"
  | .skipIfKey => "skip-if-key"
  | .skipIfNotKey => "skip-if-not-key"
  | .getDelay => "get-delay"
  | .waitKey => "wait-key"
  | .setDelay => "set-delay"
  | .setSound => "set-sound"
  | .addIndex => "add-index"
  | .fontChar => "font-char"
  | .bcd => "bcd"
  | .store => "store"
  | .load => "load"

/-! ## Assembling -/

/-- A register operand's number. -/
def regNum (k : Nat) : RegIdx := Fin.ofNat 16 k

/-- The instruction a mnemonic and its operands stand for, labels already replaced by their addresses (R83). Operands that
are not well formed give none. -/
def toInstr (m : Mnemonic) (ops : List AsmOperand) : Option Instr :=
  if operandsWf m.format ops then
    match m, ops with
    | .clear, [] => some .clear
    | .ret, [] => some .ret
    | .jump, [.num a] => some (.jump (BitVec.ofNat 12 a))
    | .call, [.num a] => some (.call (BitVec.ofNat 12 a))
    | .setIndex, [.num a] => some (.setIndex (BitVec.ofNat 12 a))
    | .jumpOffset, [.num a] => some (.jumpOffset (BitVec.ofNat 12 a))
    | .skipEqImm, [.reg x, .num nn] => some (.skipEqImm (regNum x) (BitVec.ofNat 8 nn))
    | .skipNeqImm, [.reg x, .num nn] => some (.skipNeqImm (regNum x) (BitVec.ofNat 8 nn))
    | .setImm, [.reg x, .num nn] => some (.setImm (regNum x) (BitVec.ofNat 8 nn))
    | .addImm, [.reg x, .num nn] => some (.addImm (regNum x) (BitVec.ofNat 8 nn))
    | .random, [.reg x, .num nn] => some (.random (regNum x) (BitVec.ofNat 8 nn))
    | .skipEq, [.reg x, .reg y] => some (.skipEq (regNum x) (regNum y))
    | .skipNeq, [.reg x, .reg y] => some (.skipNeq (regNum x) (regNum y))
    | .set, [.reg x, .reg y] => some (.set (regNum x) (regNum y))
    | .or, [.reg x, .reg y] => some (.or (regNum x) (regNum y))
    | .and, [.reg x, .reg y] => some (.and (regNum x) (regNum y))
    | .xor, [.reg x, .reg y] => some (.xor (regNum x) (regNum y))
    | .add, [.reg x, .reg y] => some (.add (regNum x) (regNum y))
    | .sub, [.reg x, .reg y] => some (.sub (regNum x) (regNum y))
    | .shiftRight, [.reg x, .reg y] => some (.shiftRight (regNum x) (regNum y))
    | .subYx, [.reg x, .reg y] => some (.subYx (regNum x) (regNum y))
    | .shiftLeft, [.reg x, .reg y] => some (.shiftLeft (regNum x) (regNum y))
    | .draw, [.reg x, .reg y, .num n] => some (.draw (regNum x) (regNum y) (regNum n))
    | .skipIfKey, [.reg x] => some (.skipIfKey (regNum x))
    | .skipIfNotKey, [.reg x] => some (.skipIfNotKey (regNum x))
    | .getDelay, [.reg x] => some (.getDelay (regNum x))
    | .waitKey, [.reg x] => some (.waitKey (regNum x))
    | .setDelay, [.reg x] => some (.setDelay (regNum x))
    | .setSound, [.reg x] => some (.setSound (regNum x))
    | .addIndex, [.reg x] => some (.addIndex (regNum x))
    | .fontChar, [.reg x] => some (.fontChar (regNum x))
    | .bcd, [.reg x] => some (.bcd (regNum x))
    | .store, [.reg x] => some (.store (regNum x))
    | .load, [.reg x] => some (.load (regNum x))
    | _, _ => none
  else none

/-- How many bytes a line gives (R83, R84). -/
def lineSize : AsmLine → Nat
  | .label _ => 0
  | .instr _ _ => 2
  | .byte _ => 1
  | .word _ => 2

/-- Each label with the address of what follows it, the first line standing at `a` (R83). -/
def labelTable (a : Nat) : List AsmLine → List (String × Nat)
  | [] => []
  | .label name :: ls => (name, a) :: labelTable a ls
  | l :: ls => labelTable (a + lineSize l) ls

/-- An operand with a label replaced by its address; a label nothing defines gives none. -/
def resolveOperand (table : List (String × Nat)) : AsmOperand → Option AsmOperand
  | .label name => (table.find? (fun e => e.1 == name)).map (fun e => .num e.2)
  | .reg k => some (.reg k)
  | .num n => some (.num n)

/-- The bytes of one line (R83). -/
def assembleLine (table : List (String × Nat)) (l : AsmLine) : Option (List Byte) :=
  if l.wf then
    match l with
    | .label _ => some []
    | .byte b => some [BitVec.ofNat 8 b]
    | .word w => some [highByte (BitVec.ofNat 16 w), lowByte (BitVec.ofNat 16 w)]
    | .instr m ops =>
      match ops.mapM (resolveOperand table) with
      | some args => (toInstr m args).map encodeBytes
      | none => none
  else none

/-- A program image from assembly lines, its first byte to lie at 0x200 (R59, R83). -/
def assemble (lines : List AsmLine) : Option (List Byte) :=
  (lines.mapM (assembleLine (labelTable 0x200 lines))).map List.flatten

/-! ## Reading a line's text -/

/-- Without the blanks at both ends. -/
def trim (cs : List Char) : List Char :=
  ((cs.dropWhile (· == ' ')).reverse.dropWhile (· == ' ')).reverse

/-- The text before the first `c` and, where there is a `c`, the text after it. -/
def splitAtChar (c : Char) : List Char → List Char × Option (List Char)
  | [] => ([], none)
  | d :: ds =>
    if d == c then ([], some ds)
    else ((d :: (splitAtChar c ds).1), (splitAtChar c ds).2)

/-- The text cut at every `c`. -/
def splitEvery (c : Char) : List Char → List (List Char)
  | [] => [[]]
  | d :: ds =>
    match splitEvery c ds with
    | [] => if d == c then [[], []] else [[d]]
    | p :: ps => if d == c then [] :: p :: ps else (d :: p) :: ps

/-- The sixteen digits of R83's hexadecimal numbers, each at the place that is its value. -/
def hexDigits : List Char := "0123456789ABCDEF".toList

/-- The value of a hexadecimal digit, of either case (notes/assumptions/12.md). -/
def hexDigit (c : Char) : Option Nat := hexDigits.findIdx? (fun d => d == c.toUpper)

/-- The number some digits stand for in a base up to 16. -/
def readDigits (base : Nat) : List Char → Nat → Option Nat
  | [], n => some n
  | c :: cs, n =>
    match hexDigit c with
    | some d => if d < base then readDigits base cs (n * base + d) else none
    | none => none

/-- A number: hexadecimal with `0x`, or decimal (R83). -/
def readNumber : List Char → Option Nat
  | '0' :: 'x' :: c :: cs => readDigits 16 (c :: cs) 0
  | c :: cs => readDigits 10 (c :: cs) 0
  | [] => none

/-- An operand: a register `V0` to `VF`, a number, or else a label (R83). -/
def readOperand (cs : List Char) : Option AsmOperand :=
  match cs with
  | [] => none
  | ['V', d] =>
    match hexDigit d with
    | some k => some (.reg k)
    | none => some (.label (String.ofList cs))
  | c :: _ =>
    match readNumber cs with
    | some n => some (.num n)
    | none => if c.isDigit then none else some (.label (String.ofList cs))

/-- The instruction or directive of a line without comment and label (R83). -/
def readStatement (cs : List Char) : Option AsmLine :=
  let head := (splitAtChar ' ' cs).1
  let rest := trim ((splitAtChar ' ' cs).2.getD [])
  if head = ".byte".toList then (readNumber rest).map .byte
  else if head = ".word".toList then (readNumber rest).map .word
  else
    match Mnemonic.all.find? (fun m => (mnemonicText m).toList == head) with
    | none => none
    | some m =>
      if rest = [] then some (.instr m [])
      else ((splitEvery ',' rest).mapM (fun p => readOperand (trim p))).map (.instr m)

/-- A line of assembly text: `;` starts a comment, `name:` is a label, and one instruction or directive may follow (R83). -/
def readLine (cs : List Char) : Option (List AsmLine) :=
  let text := trim (splitAtChar ';' cs).1
  match splitAtChar ':' text with
  | (_, none) => if text = [] then some [] else (readStatement text).map (fun l => [l])
  | (name, some rest) =>
    if trim name = [] then none
    else
      let body := trim rest
      if body = [] then some [.label (String.ofList (trim name))]
      else (readStatement body).map (fun l => [.label (String.ofList (trim name)), l])

/-- A program image from the lines of its text (R83). -/
def assembleText (lines : List (List Char)) : Option (List Byte) :=
  match lines.mapM readLine with
  | some ls => assemble ls.flatten
  | none => none

end Sys2Proof.Machine
end

