-- ==== Sys2Proof/Machine/Ports.lean ====
section
/-! DEFINITION. The host interface (spec/60_exceptions.md R230, R234 to R237): the host's actions, each one atomic and
taken only between cycles, and what the host reads. -/

namespace Sys2Proof.Machine

/-- What the host may do (R235). There is no action that writes V, I, PC, S or FAULT, none that writes M or CFG but for
RESET, and none that hands the core a word to execute (R237). -/
inductive HostAction
  /-- RESET(cfg, image). -/
  | reset (cfg : BitVec 3) (image : List Byte)
  /-- STEP(rnd): one cycle, with its random byte. -/
  | step (rnd : Byte)
  /-- KEYS_WR. -/
  | keysWr (k : Keys)
  /-- DISP_WR. -/
  | dispWr (d : Display)
  /-- DT_WR. -/
  | dtWr (x : Byte)
  /-- ST_WR. -/
  | stWr (x : Byte)
  /-- TICK. -/
  | tick
  deriving DecidableEq, Repr

/-- A timer's decrement: it stops at 0 (R230). -/
def tickTimer (t : Byte) : Byte := if t.toNat > 0 then t - 1 else t

/-- TICK: the host's decrement of both timers (R230). -/
def State.tick (s : State) : State := { s with dt := tickTimer s.dt, st := tickTimer s.st }

/-- STEP(rnd): a cycle whose random byte is rnd, which no later cycle reads (R40, R235). -/
def stepWith (rnd : Byte) (s : State) : Outcome :=
  match step { s with rnd := some rnd } with
  | .next t => .next { t with rnd := none }
  | .fault r => .fault r
  | .refused r => .refused r

/-- One host action (R235). -/
def hostAct (a : HostAction) (s : State) : Outcome :=
  match a with
  | .reset cfg image => construct s.params (Cfg.ofBits cfg) image s.draws
  | .step rnd => stepWith rnd s
  | .keysWr k => .next { s with keys := k }
  | .dispWr d => .next (s.setDisplay d)
  | .dtWr x => .next (s.setDelay x)
  | .stWr x => .next (s.setSound x)
  | .tick => .next s.tick

/-- Host actions one after another: they and the cycles form one total order (R237). -/
def hostRun : List HostAction → State → Outcome
  | [], s => .next s
  | a :: as, s =>
    match hostAct a s with
    | .next t => hostRun as t
    | .fault r => .fault r
    | .refused r => .refused r

/-- The output ports of R234 but STATE_RD. -/
structure Outputs where
  /-- DC: display-changed of the last cycle. -/
  dc : Bool
  /-- DISP_RD. -/
  display : Display
  /-- DT_RD. -/
  dt : Byte
  /-- ST_RD. -/
  st : Byte
  /-- SOUND_ON. -/
  soundOn : Bool
  /-- FAULT, 2 + 16 + 16 bits. -/
  fault : BitVec 2 × Word × Word
  deriving DecidableEq, Repr

/-- What the host reads at the ports; STATE_RD is the whole of State, read field by field (R233, R234). -/
def State.outputs (s : State) : Outputs where
  dc := s.dc
  display := s.display
  dt := s.dt
  st := s.st
  soundOn := s.soundOn
  fault := (s.fault.kind.code, s.fault.word, s.fault.fpc)

end Sys2Proof.Machine
end

