-- ==== Sys2Proof/Safety.lean ====
section
/-! DEFINITION. What counts as a legal state, and how a run ends (spec/70_reset_and_hazards.md R255). -/

namespace Sys2Proof.Machine

/-- The fault record agrees with the state (R222, R224): a core that has not faulted has the clear record; after a
DecodeError the word does not decode; after a StackUnderflow S is empty; after a StackOverflow S is full at its
bound; and after any fault PC is the fault's address plus 2. -/
def State.FaultConsistent (s : State) : Prop :=
  match s.fault.kind with
  | .none => s.fault = .clear
  | .decodeError => (∃ e, decode s.fault.word = .error e) ∧ s.pc = s.fault.fpc + 2
  | .stackUnderflow => s.fault.word = 0x00EE ∧ s.stack = [] ∧ s.pc = s.fault.fpc + 2
  | .stackOverflow =>
    opField s.fault.word = 0x2 ∧ s.params.stackDepth = some s.stack.length ∧ s.pc = s.fault.fpc + 2

/-- The invariant of the core: memory in canonical form, a bounded stack within its bound (R29), and a fault record that
agrees with the state. -/
structure State.Inv (s : State) : Prop where
  mem_wf : s.mem.wf = true
  stack_bound : ∀ n, s.params.stackDepth = some n → s.stack.length ≤ n
  fault_consistent : s.FaultConsistent

/-- A run that has not come to a bad end: the core is not halted (R223, R255). -/
def State.Safe (s : State) : Prop := s.halted = false

/-- How a run ends (R255). -/
inductive RunEnd
  /-- (1) halted: a bad end. -/
  | halted
  /-- (2) at a self-jump: a good end. -/
  | selfJump
  /-- (3) the host ceases to request STEP: cut off, not finished. -/
  | cutOff
  deriving DecidableEq, Repr

/-- The core stands at a self-jump: `PC = a ≤ 0xFFF` and the word there is `0x1000 | a` (R109, R255). -/
def State.atSelfJump (s : State) : Bool :=
  !s.halted && decide (s.pc.toNat ≤ 0xFFF) && s.fetchWord == (0x1000 ||| s.pc)

/-- The end a state shows by itself, (1) or (2); whether the host steps on, (3), is no property of a state (R255). -/
def State.runEnd (s : State) : Option RunEnd :=
  if s.halted then some .halted
  else if s.atSelfJump then some .selfJump
  else none

/-! ## Runs (R255)

A run is a state and what the host does from it on, moment by moment: an action, or nothing. So a host that stops for good
and a host that goes on for ever are both of this form. -/

/-- What the host does at each moment. -/
abbrev HostBehaviour := Nat → Option HostAction

/-- The host does no RESET: a RESET ends nothing, it begins another run (R251, R255). -/
def HostBehaviour.NoReset (acts : HostBehaviour) : Prop := ∀ n cfg image, acts n ≠ some (.reset cfg image)

/-- The host keeps requesting STEP: after every moment there is one more (R236, R255). -/
def HostBehaviour.KeepsStepping (acts : HostBehaviour) : Prop := ∀ n, ∃ m rnd, n ≤ m ∧ acts m = some (.step rnd)

/-- The run after the first n moments. -/
def runAfter (acts : HostBehaviour) (s : State) (n : Nat) : Outcome := hostRun ((List.range n).filterMap acts) s

/-- At some moment of the run the state shows the end `e`. -/
def Reaches (acts : HostBehaviour) (s : State) (e : RunEnd) : Prop :=
  ∃ n t, runAfter acts s n = .next t ∧ t.runEnd = some e

/-- The run neither halts nor comes to a self-jump. -/
def Unfinished (acts : HostBehaviour) (s : State) : Prop := ¬ Reaches acts s .halted ∧ ¬ Reaches acts s .selfJump

/-- The run ends in this way (R255): it reaches the end (1) or (2), or it has reached neither and the host ceases to
request STEP. -/
def EndsBy (acts : HostBehaviour) (s : State) : RunEnd → Prop
  | .halted => Reaches acts s .halted
  | .selfJump => Reaches acts s .selfJump
  | .cutOff => Unfinished acts s ∧ ¬ acts.KeepsStepping

/-- A hang: the host keeps requesting STEP, so the run is infinite, and it is neither (1) nor (2) (R255). -/
def Hangs (acts : HostBehaviour) (s : State) : Prop := acts.KeepsStepping ∧ Unfinished acts s

/-- What becomes of a run: one of the three ends, or (`none`) a hang. -/
def RunVerdict (acts : HostBehaviour) (s : State) : Option RunEnd → Prop
  | some e => EndsBy acts s e
  | none => Hangs acts s

end Sys2Proof.Machine
end

