-- ==== Sys2Proof/Certificates/Slice0/Obligations.lean ====
section
/-! DEFINITION. The statements about the core, for the provers. Each says which rule of spec/ it formalises. The words it
uses come first: the frame of an instruction, its encoding as a number, and the tables of R22 and R24. -/

namespace Sys2Proof.Machine

/-- The parts of the state but the registers V. -/
inductive Part
  | i | pc | stack | dt | st | mem | display | keys | cfg | fault | dc | params | random
  deriving DecidableEq, Repr

/-- One part is the same in two states; memory is, when every byte reads the same. -/
def Part.Same : Part → State → State → Prop
  | .i, s, t => t.i = s.i
  | .pc, s, t => t.pc = s.pc
  | .stack, s, t => t.stack = s.stack
  | .dt, s, t => t.dt = s.dt
  | .st, s, t => t.st = s.st
  | .mem, s, t => ∀ a, t.readByte a = s.readByte a
  | .display, s, t => t.display = s.display
  | .keys, s, t => t.keys = s.keys
  | .cfg, s, t => t.cfg = s.cfg
  | .fault, s, t => t.fault = s.fault
  | .dc, s, t => t.dc = s.dc
  | .params, s, t => t.params = s.params
  | .random, s, t => t.rnd = s.rnd ∧ t.draws = s.draws

/-- THE FRAME: every register outside `regs` and every part outside `parts` is the same in `t` as in `s` (R24). -/
def Frame (regs : RegIdx → Prop) (parts : List Part) (s t : State) : Prop :=
  (∀ k, ¬ regs k → t.reg k = s.reg k) ∧ ∀ p, p ∉ parts → p.Same s t

/-- No register. -/
def noReg : RegIdx → Prop := fun _ => False

/-- The instruction's canonical word is the number `n`, and the word `n` decodes to the instruction. -/
def Encodes (i : Instr) (n : Nat) : Prop :=
  (encode i).toNat = n ∧ ∀ w : Word, w.toNat = n → decode w = .ok i

/-- Two numbers name the same memory cell (R51). -/
def SameCell (a b : Nat) : Prop := a % 4096 = b % 4096

/-- A data write to this address is discarded (R53). -/
def Discarded (s : State) (a : Nat) : Prop :=
  s.params.fontWriteProtect = true ∧ 0x050 ≤ a % 4096 ∧ a % 4096 ≤ 0x09F

/-- The registers each instruction reads, the column `reads` of R22. -/
def regsRead (c : Cfg) : Instr → RegIdx → Prop
  | .clear, _ | .ret, _ | .jump _, _ | .call _, _ | .setIndex _, _ => False
  | .skipEqImm x _, k | .skipNeqImm x _, k | .addImm x _, k => k = x
  | .setImm _ _, _ | .random _ _, _ | .getDelay _, _ | .waitKey _, _ | .load _, _ => False
  | .set _ y, k => k = y
  | .skipEq x y, k | .skipNeq x y, k => k = x ∨ k = y
  | .or x y, k | .and x y, k | .xor x y, k => k = x ∨ k = y
  | .add x y, k | .sub x y, k | .subYx x y, k | .draw x y _, k => k = x ∨ k = y
  | .shiftRight x y, k | .shiftLeft x y, k => if c.shiftVy = true then k = y else k = x
  | .jumpOffset nnn, k => if c.jumpVx = true then k.val = nnn.toNat / 256 else k.val = 0
  | .skipIfKey x, k | .skipIfNotKey x, k | .setDelay x, k | .setSound x, k => k = x
  | .fontChar x, k | .bcd x, k | .addIndex x, k => k = x
  | .store x, k => k.val ≤ x.val

/-- The registers each instruction may write, the column `writes` of R22. -/
def regsWritten : Instr → RegIdx → Prop
  | .setImm x _, k | .addImm x _, k | .set x _, k | .or x _, k | .and x _, k | .xor x _, k => k = x
  | .add x _, k | .sub x _, k | .subYx x _, k => k = x ∨ k = VF
  | .shiftRight x _, k | .shiftLeft x _, k | .random x _, k | .getDelay x, k | .waitKey x, k => k = x
  | .draw _ _ _, k | .addIndex _, k => k = VF
  | .load x, k => k.val ≤ x.val
  | .clear, _ | .ret, _ | .jump _, _ | .call _, _ | .setIndex _, _ | .jumpOffset _, _ => False
  | .skipEqImm _ _, _ | .skipNeqImm _ _, _ | .skipEq _ _, _ | .skipNeq _ _, _ => False
  | .skipIfKey _, _ | .skipIfNotKey _, _ | .setDelay _, _ | .setSound _, _ | .fontChar _, _ => False
  | .bcd _, _ | .store _, _ => False

/-- The other parts each instruction's rule names as written (R24). A fault of return or call writes FAULT and DC. -/
def partsWritten : Instr → List Part
  | .clear | .draw _ _ _ => [.display, .dc]
  | .ret | .call _ => [.pc, .stack, .fault, .dc]
  | .jump _ | .jumpOffset _ | .skipEqImm _ _ | .skipNeqImm _ _ | .skipEq _ _ | .skipNeq _ _ => [.pc]
  | .skipIfKey _ | .skipIfNotKey _ | .waitKey _ => [.pc]
  | .setImm _ _ | .addImm _ _ | .set _ _ | .or _ _ | .and _ _ | .xor _ _ | .add _ _ | .sub _ _ => []
  | .subYx _ _ | .shiftRight _ _ | .shiftLeft _ _ | .getDelay _ => []
  | .random _ _ => [.random]
  | .setIndex _ | .addIndex _ | .fontChar _ | .load _ => [.i]
  | .bcd _ => [.mem]
  | .store _ => [.mem, .i]
  | .setDelay _ => [.dt]
  | .setSound _ => [.st]

/-- The instruction stores to the cell of this address: bcd at I to I + 2, store at I to I + X (R56, R174, R175). -/
def StoresTo (i : Instr) (s : State) (a : Nat) : Prop :=
  match i with
  | .bcd _ => ∃ k, k < 3 ∧ SameCell a (s.dataAddr k)
  | .store x => ∃ k, k ≤ x.val ∧ SameCell a (s.dataAddr k)
  | .clear | .ret | .jump _ | .call _ | .skipEqImm _ _ | .skipNeqImm _ _ | .skipEq _ _ | .skipNeq _ _ => False
  | .setImm _ _ | .addImm _ _ | .set _ _ | .or _ _ | .and _ _ | .xor _ _ | .add _ _ | .sub _ _ => False
  | .shiftRight _ _ | .subYx _ _ | .shiftLeft _ _ | .setIndex _ | .jumpOffset _ | .random _ _ => False
  | .draw _ _ _ | .skipIfKey _ | .skipIfNotKey _ | .getDelay _ | .waitKey _ | .setDelay _ => False
  | .setSound _ | .addIndex _ | .fontChar _ | .load _ => False

/-- PC after an instruction that does not fault, from PC after its fetch, as R26 lists it. -/
def pcAfter (i : Instr) (s : State) : Word :=
  match i with
  | .skipEqImm x nn => if s.reg x = nn then s.pc + 2 else s.pc
  | .skipNeqImm x nn => if s.reg x ≠ nn then s.pc + 2 else s.pc
  | .skipEq x y => if s.reg x = s.reg y then s.pc + 2 else s.pc
  | .skipNeq x y => if s.reg x ≠ s.reg y then s.pc + 2 else s.pc
  | .skipIfKey x => if s.keys[(s.reg x).toNat % 16]! = true then s.pc + 2 else s.pc
  | .skipIfNotKey x => if s.keys[(s.reg x).toNat % 16]! = false then s.pc + 2 else s.pc
  | .jump nnn | .call nnn => BitVec.ofNat 16 nnn.toNat
  | .jumpOffset nnn => BitVec.ofNat 16 (nnn.toNat + (s.reg (if s.cfg.jumpVx then Fin.ofNat 16 (nnn.toNat / 256) else 0)).toNat)
  | .ret => s.stack.headD 0
  | .waitKey _ => if ∀ k : Fin 16, s.keys[k.val] = false then s.pc - 2 else s.pc
  | .clear | .setImm _ _ | .addImm _ _ | .set _ _ | .or _ _ | .and _ _ | .xor _ _ | .add _ _ | .sub _ _ => s.pc
  | .shiftRight _ _ | .subYx _ _ | .shiftLeft _ _ | .setIndex _ | .random _ _ | .draw _ _ _ => s.pc
  | .getDelay _ | .setDelay _ | .setSound _ | .addIndex _ | .fontChar _ | .bcd _ | .store _ | .load _ => s.pc

/-- The instruction faults on the state its fetch has left (R220): a return with S empty, or a call with S full. -/
def StackFault (i : Instr) (s : State) : Prop :=
  (i = .ret ∧ s.stack = []) ∨ ((∃ nnn, i = .call nnn) ∧ s.params.stackDepth = some s.stack.length)

/-- The sprite bit that falls on a display cell, a sprite of `n` rows drawn from column x0 and row y0 (R193). -/
def spriteBit (s : State) (x0 y0 n : Nat) (y : Fin 32) (x : Fin 64) : Bool :=
  decide (y0 ≤ y.val ∧ y.val < y0 + n ∧ x0 ≤ x.val ∧ x.val < x0 + 8) &&
    (s.readByte (s.i.toNat + (y.val - y0))).getLsbD (7 - (x.val - x0))

/-- How many of the 4096 words of a group decode (R81). -/
def decodedInGroup (op : Nat) : Nat :=
  ((List.range 4096).filter (fun n => (decode (BitVec.ofNat 16 (op * 4096 + n))).toOption.isSome)).length

/-- A host action other than RESET. -/
def notReset : HostAction → Prop
  | .reset _ _ => False
  | _ => True

/-- The operands hold no label. -/
def noLabel (ops : List AsmOperand) : Prop := ∀ name, AsmOperand.label name ∉ ops

/-- What the operands of a line add to the word of its mnemonic (R83): VX is 0x100 for each register number, VY 0x10,
and NNN, NN or N stands at the low end. -/
def operandBits : List AsmOperand → Nat
  | [.num nnn] => nnn
  | [.reg x] => x * 256
  | [.reg x, .num nn] => x * 256 + nn
  | [.reg x, .reg y] => x * 256 + y * 16
  | [.reg x, .reg y, .num n] => x * 256 + y * 16 + n
  | _ => 0

end Sys2Proof.Machine

open Sys2Proof Sys2Proof.Machine

/-! ## Encoding -/

/-- Decode and encode agree: the bytes of every instruction, whatever follows them, decode to it (R74, R82). -/
def Obligations.DecodeOfEncodeIsIdentity : Prop :=
  ∀ i : Instr, decode (encode i) = .ok i ∧ ∀ rest, decodeBytes (encodeBytes i ++ rest) = .ok (i, rest)

/-- The only non-canonical words are 0x5XYn and 0x9XYn with n ≠ 0, and they execute as skip-eq and skip-neq. An
inference of the spec's own: R80 is marked "derived: from rules R74 and R79". -/
def Obligations.NonCanonicalWordsAreSkipsAlone : Prop :=
  (∀ w i, decode w = .ok i →
    (encode i ≠ w ↔ (w.toNat / 4096 = 5 ∨ w.toNat / 4096 = 9) ∧ w.toNat % 16 ≠ 0)) ∧
  (∀ (x y : RegIdx) (n : Nat), n < 16 →
    decode (BitVec.ofNat 16 (0x5000 + x.val * 256 + y.val * 16 + n)) = .ok (.skipEq x y) ∧
    decode (BitVec.ofNat 16 (0x9000 + x.val * 256 + y.val * 16 + n)) = .ok (.skipNeq x y))

/-- R82: the decoder reads exactly the table's rows, the rows are disjoint, and a word that matches no row is
DecodeError. -/
def Obligations.DecodeReadsTheOpcodeTable : Prop :=
  (∀ (w : Word) (m : Mnemonic), (∃ i, decode w = .ok i ∧ i.mnemonic = m) ↔ w &&& m.format.mask = m.matchBits) ∧
  (∀ (w : Word) (m m' : Mnemonic), w &&& m.format.mask = m.matchBits → w &&& m'.format.mask = m'.matchBits → m = m') ∧
  (∀ w : Word, (∀ m : Mnemonic, w &&& m.format.mask ≠ m.matchBits) → ∃ e, decode w = .error e) ∧
  (∀ m, m ∈ Mnemonic.all)

/-- Which words are illegal, and that each raises DecodeError (R81). That the whole word of group 0 and the whole last
byte of group E are examined are the spec's own decisions D5 and D6, and the record is D13 (log entry 10). -/
def Obligations.IllegalWordsAreExactlyThese : Prop :=
  ∀ w : Word,
    ((∃ e, decode w = .error e) ↔
      (w.toNat / 4096 = 0 ∧ w.toNat ≠ 0x00E0 ∧ w.toNat ≠ 0x00EE) ∨
      (w.toNat / 4096 = 8 ∧ w.toNat % 16 ∈ [8, 9, 0xA, 0xB, 0xC, 0xD, 0xF]) ∨
      (w.toNat / 4096 = 0xE ∧ w.toNat % 256 ≠ 0x9E ∧ w.toNat % 256 ≠ 0xA1) ∨
      (w.toNat / 4096 = 0xF ∧ w.toNat % 256 ∉ [0x07, 0x0A, 0x15, 0x18, 0x1E, 0x29, 0x33, 0x55, 0x65])) ∧
    ∀ s : State, s.halted = false → s.fetchWord = w → (∃ e, decode w = .error e) →
      ∃ t, step s = .next t ∧ t.fault = ⟨.decodeError, w, s.pc⟩ ∧ t.halted = true

/-- How many words of each group decode, and that 51634 decode in all: the counts R81 marks "derived". -/
def Obligations.CountOfWordsThatDecode : Prop :=
  decodedInGroup 0x0 = 2 ∧ (∀ op ∈ [1, 2, 3, 4, 5, 6, 7, 9, 0xA, 0xB, 0xC, 0xD], decodedInGroup op = 4096) ∧
  decodedInGroup 0x8 = 2304 ∧ decodedInGroup 0xE = 32 ∧ decodedInGroup 0xF = 144 ∧
  ((List.range 16).map decodedInGroup).sum = 51634

/-- Sanity: words written out from the encodings of R82, one from each family, decode to what they stand for. -/
def Obligations.DecodesTheseWords : Prop :=
  decode 0x00EE = .ok .ret ∧ decode 0x2345 = .ok (.call 0x345) ∧ decode 0x8AB4 = .ok (.add 0xA 0xB) ∧
  decode 0xFC55 = .ok (.store 0xC) ∧ decode 0xD12F = .ok (.draw 0x1 0x2 0xF) ∧ decode 0x0123 = .error .group0

/-! ## The cycle, faults and the halt -/

/-- MemRead of R52: one byte at the address modulo 4096, or two big-endian, the second address wrapping; and the fetch
is the read of two bytes at PC. That addresses wrap modulo 4096 is the spec's own decision D1 (log entry 10). -/
def Obligations.FetchIsBigEndianAndWraps : Prop :=
  ∀ (s : State) (addr : Nat),
    s.readByte addr = s.readByte (addr % 4096) ∧
    (s.readWord addr).toNat =
      (s.readByte (addr % 4096)).toNat * 256 + (s.readByte ((addr + 1) % 4096)).toNat ∧
    s.fetchWord = s.readWord s.pc.toNat

/-- A cycle of a core that is not halted runs the decoded instruction on the state the fetch has left (R262), which
differs in PC, advanced by 2, and in DC, cleared. That the meaning starts from this state is the model's form (log
entry 11). -/
def Obligations.StepRunsTheDecodedInstruction : Prop :=
  ∀ (s : State) (i : Instr), s.halted = false → decode s.fetchWord = .ok i →
    step s = exec i s.afterFetch ∧ s.afterFetch.pc.toNat = (s.pc.toNat + 2) % 65536 ∧
    s.afterFetch.dc = false ∧ Frame noReg [.pc, .dc] s s.afterFetch

/-- A cycle of a core that is not halted ends halted exactly for the three causes; it then records the kind, the word
and its address, leaves PC at a + 2 and DC at 0, and changes nothing else (R220 to R222, R224). The codes, the record
and DC are the spec's own decisions D13 and D20, the bound of S is D10 (log entry 10). -/
def Obligations.FaultsArePreciseAndRecorded : Prop :=
  ∀ s t : State, s.halted = false → step s = .next t →
    (t.halted = true ↔
      (∃ e, decode s.fetchWord = .error e) ∨
      (∃ i, decode s.fetchWord = .ok i ∧ StackFault i s)) ∧
    (t.halted = true →
      t.fault.word = s.fetchWord ∧ t.fault.fpc = s.pc ∧ t.pc = s.pc + 2 ∧ t.dc = false ∧
      Frame noReg [.pc, .dc, .fault] s t ∧
      (t.fault.kind.code.toNat = 1 ↔ ∃ e, decode s.fetchWord = .error e) ∧
      (t.fault.kind.code.toNat = 2 ↔ decode s.fetchWord = .ok .ret ∧ s.stack = []) ∧
      (t.fault.kind.code.toNat = 3 ↔
        ∃ nnn, decode s.fetchWord = .ok (.call nnn) ∧ s.params.stackDepth = some s.stack.length))

/-- While halted a cycle changes no state and gives DC = 0, and no run of host actions without a RESET clears FAULT or
resumes execution (R223). That a cycle requested while halted changes nothing is the spec's own decision D13 (log
entry 10). -/
def Obligations.HaltLastsUntilReset : Prop :=
  ∀ s : State, s.halted = true →
    (∃ t, step s = .next t ∧ t.dc = false ∧ t.mem = s.mem ∧ Frame noReg [.dc] s t) ∧
    ∀ acts : List HostAction, (∀ a ∈ acts, notReset a) →
      ∃ t, hostRun acts s = .next t ∧ t.fault = s.fault ∧ t.pc = s.pc ∧ t.mem = s.mem ∧ t.stack = s.stack ∧
        t.v = s.v ∧ t.i = s.i

/-- "No other operation raises an error" (R220): every cycle from every state gives a next state. That a fault of R220
is itself a next state is the model's form (log entry 5). -/
def Obligations.EveryCycleGivesANextState : Prop := ∀ s : State, ∃ t, step s = .next t

/-- Every step keeps the invariant: memory in canonical form, the stack within its bound, and a fault record that
agrees with the state (R29, R32, R222, R224). -/
def Obligations.StepKeepsTheInvariant : Prop := ∀ s t : State, s.Inv → step s = .next t → t.Inv

/-- The state after reset meets the invariant. -/
def Obligations.ResetMeetsTheInvariant : Prop := State.reset.Inv

/-- Every host action keeps the invariant, so every state of every run has it (R235, R255). -/
def Obligations.HostRunsKeepTheInvariant : Prop :=
  ∀ (acts : List HostAction) (s t : State), s.Inv → hostRun acts s = .next t → t.Inv

/-! ## Rules over all instructions -/

/-- R24: an instruction writes only the registers and the parts of the state its rule names, and of memory only the
bytes it stores to; its cycle writes PC, by the fetch, and the output DC besides. The part `random`, which the
instruction random writes, is the model's own (log entry 1). -/
def Obligations.InstructionsWriteOnlyWhatTheirRulesName : Prop :=
  (∀ (i : Instr) (s t : State), exec i s = .next t →
    Frame (regsWritten i) (partsWritten i) s t ∧ ∀ a, ¬ StoresTo i s a → t.readByte a = s.readByte a) ∧
  (∀ (i : Instr) (s t : State), s.halted = false → decode s.fetchWord = .ok i → step s = .next t →
    Frame (regsWritten i) (.pc :: .dc :: partsWritten i) s t ∧ ∀ a, ¬ StoresTo i s a → t.readByte a = s.readByte a)

/-- An instruction reads only the registers of its row in R22: changing another register changes nothing else. The
table's rows are marked "derived" in the spec. -/
def Obligations.InstructionsReadOnlyTheirRegisters : Prop :=
  ∀ (i : Instr) (s : State) (k : RegIdx) (b : Byte), ¬ regsRead s.cfg i k →
    ∃ t u, exec i s = .next t ∧ exec i (s.setReg k b) = .next u ∧ Frame (fun j => j = k) [] t u ∧
      (u.reg k = t.reg k ∨ (u.reg k = b ∧ t.reg k = s.reg k))

/-- R26: how each instruction leaves PC; one that faults, and a word that does not decode, leave it at a + 2. -/
def Obligations.ProgramCounterAfterEachInstruction : Prop :=
  ∀ s t : State, s.halted = false → step s = .next t →
    (t.halted = true → t.pc = s.pc + 2) ∧
    (∀ i, t.halted = false → decode s.fetchWord = .ok i → t.pc = pcAfter i s.afterFetch)

/-- DC is 1 exactly when the cycle executed clear or draw (R33); that it is 0 on a fault and while halted is the
spec's own decision D20 (log entry 10). -/
def Obligations.DisplayChangedExactlyForClearAndDraw : Prop :=
  ∀ s t : State, step s = .next t →
    (t.dc = true ↔ s.halted = false ∧
      (decode s.fetchWord = .ok .clear ∨ ∃ x y n, decode s.fetchWord = .ok (.draw x y n)))

/-- "No instruction reads ST" (R30): a cycle from a state that differs in ST alone differs in ST alone, and not at all
when it executes set-sound. -/
def Obligations.NoInstructionReadsTheSoundTimer : Prop :=
  ∀ (s t : State) (b : Byte), step s = .next t →
    step (s.setSound b) =
      .next (if s.halted = false ∧ ∃ x, decode s.fetchWord = .ok (.setSound x) then t else t.setSound b)

/-- A jump to itself is a fixed point of every later cycle, but for DC = 0: an inference of the spec's own, R109. -/
def Obligations.SelfJumpIsAFixedPoint : Prop :=
  ∀ s : State, s.halted = false → s.pc.toNat ≤ 0xFFF → s.fetchWord.toNat = 0x1000 + s.pc.toNat →
    ∀ n, Host.Core.run Sys2Proof.core (n + 1) s = .next (s.setDc false)

/-- Under FONT_WRITE_PROTECT no run of host actions without a RESET changes a byte of the font region (R53, R58). The
protection is the spec's own decision D11 (log entry 10). -/
def Obligations.ProtectedFontNeverChanges : Prop :=
  ∀ (acts : List HostAction) (s t : State), s.mem.wf = true → s.params.fontWriteProtect = true →
    (∀ a ∈ acts, notReset a) → hostRun acts s = .next t →
    ∀ a, 0x050 ≤ a → a ≤ 0x09F → t.readByte a = s.readByte a

/-- Memories in canonical form that read alike are equal data (the model's representation of M, log entry 7). -/
def Obligations.MemoriesThatReadAlikeAreEqual : Prop :=
  ∀ m m' : Memory, m.wf = true → m'.wf = true → (∀ a, a < 4096 → m.cell a = m'.cell a) → m = m'

/-! ## Control flow -/

/-- R101: return pops the top of S into PC, as it is; on an empty S it raises StackUnderflow. -/
def Obligations.ReturnPopsTheStack : Prop :=
  Encodes .ret 0x00EE ∧
  (∀ (s : State) (top : Word) (rest : List Word), s.stack = top :: rest →
    ∃ t, exec .ret s = .next t ∧ t.pc = top ∧ t.stack = rest ∧ Frame noReg [.pc, .stack] s t) ∧
  (∀ s : State, s.stack = [] →
    ∃ t, exec .ret s = .next t ∧ t.fault.kind = .stackUnderflow ∧ t.halted = true ∧ t.pc = s.pc ∧ t.stack = [] ∧
      Frame noReg [.fault, .dc] s t)

/-- R102: jump sets PC to NNN. -/
def Obligations.JumpSetsTheProgramCounter : Prop :=
  ∀ (nnn : Addr12) (s : State), Encodes (.jump nnn) (0x1000 + nnn.toNat) ∧
    ∃ t, exec (.jump nnn) s = .next t ∧ t.pc.toNat = nnn.toNat ∧ Frame noReg [.pc] s t

/-- call pushes the address after it and jumps; on a full bounded S it raises StackOverflow, S and PC unchanged
(R103). The bound and its fault are the spec's own decision D10, the record is D13 (log entry 10). -/
def Obligations.CallPushesTheReturnAddress : Prop :=
  ∀ (nnn : Addr12) (s : State) (a : Word), s.pc = a + 2 →
    Encodes (.call nnn) (0x2000 + nnn.toNat) ∧
    (s.params.stackDepth ≠ some s.stack.length →
      ∃ t, exec (.call nnn) s = .next t ∧ t.stack = (a + 2) :: s.stack ∧ t.pc.toNat = nnn.toNat ∧
        Frame noReg [.pc, .stack] s t) ∧
    (s.params.stackDepth = some s.stack.length →
      ∃ t, exec (.call nnn) s = .next t ∧
        t.fault = ⟨.stackOverflow, BitVec.ofNat 16 (0x2000 + nnn.toNat), a⟩ ∧ t.dc = false ∧
        Frame noReg [.fault, .dc] s t)

/-- A return after a call, wherever the program has got to, comes back to the word after the call (from R101 and
R103). -/
def Obligations.ReturnComesBackFromCall : Prop :=
  ∀ (nnn : Addr12) (s : State), s.params.stackDepth ≠ some s.stack.length →
    ∃ t, exec (.call nnn) s = .next t ∧
      ∀ u : State, u.stack = t.stack → ∃ r, exec .ret u = .next r ∧ r.pc = s.pc ∧ r.stack = s.stack

/-- R104, R105: the skips on an immediate; exactly one of the two skips. -/
def Obligations.SkipsOnAnImmediate : Prop :=
  ∀ (x : RegIdx) (nn : Byte) (s : State),
    Encodes (.skipEqImm x nn) (0x3000 + x.val * 256 + nn.toNat) ∧
    Encodes (.skipNeqImm x nn) (0x4000 + x.val * 256 + nn.toNat) ∧
    (∃ t, exec (.skipEqImm x nn) s = .next t ∧ Frame noReg [.pc] s t ∧
      t.pc.toNat = if (s.reg x).toNat = nn.toNat then (s.pc.toNat + 2) % 65536 else s.pc.toNat) ∧
    (∃ t, exec (.skipNeqImm x nn) s = .next t ∧ Frame noReg [.pc] s t ∧
      t.pc.toNat = if (s.reg x).toNat = nn.toNat then s.pc.toNat else (s.pc.toNat + 2) % 65536)

/-- R106, R107: the skips on two registers; the word's low nibble is not examined. -/
def Obligations.SkipsOnTwoRegisters : Prop :=
  ∀ (x y : RegIdx) (s : State),
    (∀ (w : Word) (n : Nat), n < 16 → w.toNat = 0x5000 + x.val * 256 + y.val * 16 + n →
      decode w = .ok (.skipEq x y)) ∧
    (∀ (w : Word) (n : Nat), n < 16 → w.toNat = 0x9000 + x.val * 256 + y.val * 16 + n →
      decode w = .ok (.skipNeq x y)) ∧
    (∃ t, exec (.skipEq x y) s = .next t ∧ Frame noReg [.pc] s t ∧
      t.pc.toNat = if (s.reg x).toNat = (s.reg y).toNat then (s.pc.toNat + 2) % 65536 else s.pc.toNat) ∧
    (∃ t, exec (.skipNeq x y) s = .next t ∧ Frame noReg [.pc] s t ∧
      t.pc.toNat = if (s.reg x).toNat = (s.reg y).toNat then s.pc.toNat else (s.pc.toNat + 2) % 65536)

/-- R108: jump-offset adds V0, or under CFG.JUMP_VX the register of the top nibble of NNN, without wrapping. -/
def Obligations.JumpOffsetAddsTheChosenRegister : Prop :=
  ∀ (nnn : Addr12) (r : RegIdx) (s : State),
    r.val = (if s.cfg.jumpVx = true then nnn.toNat / 256 else 0) →
    Encodes (.jumpOffset nnn) (0xB000 + nnn.toNat) ∧
    ∃ t, exec (.jumpOffset nnn) s = .next t ∧ t.pc.toNat = nnn.toNat + (s.reg r).toNat ∧ Frame noReg [.pc] s t

/-! ## Arithmetic, logic, shifts, random -/

/-- R132, R134: set-imm and set. -/
def Obligations.SetWritesOneRegister : Prop :=
  ∀ (x y : RegIdx) (nn : Byte) (s : State),
    Encodes (.setImm x nn) (0x6000 + x.val * 256 + nn.toNat) ∧
    Encodes (.set x y) (0x8000 + x.val * 256 + y.val * 16) ∧
    (∃ t, exec (.setImm x nn) s = .next t ∧ t.reg x = nn ∧ Frame (fun k => k = x) [] s t) ∧
    (∃ t, exec (.set x y) s = .next t ∧ t.reg x = s.reg y ∧ Frame (fun k => k = x) [] s t)

/-- R133: add-imm wraps, and VF is no carry: it changes only as the destination. -/
def Obligations.AddImmediateWrapsWithoutFlag : Prop :=
  ∀ (x : RegIdx) (nn : Byte) (s : State),
    Encodes (.addImm x nn) (0x7000 + x.val * 256 + nn.toNat) ∧
    ∃ t, exec (.addImm x nn) s = .next t ∧ (t.reg x).toNat = ((s.reg x).toNat + nn.toNat) % 256 ∧
      Frame (fun k => k = x) [] s t

/-- R135 to R137: or, and, xor, bit by bit; VF is not reset. -/
def Obligations.LogicIsBitwiseWithoutFlag : Prop :=
  ∀ (x y : RegIdx) (s : State),
    Encodes (.or x y) (0x8001 + x.val * 256 + y.val * 16) ∧
    Encodes (.and x y) (0x8002 + x.val * 256 + y.val * 16) ∧
    Encodes (.xor x y) (0x8003 + x.val * 256 + y.val * 16) ∧
    (∃ t, exec (.or x y) s = .next t ∧ Frame (fun k => k = x) [] s t ∧
      ∀ b, b < 8 → (t.reg x).getLsbD b = ((s.reg x).getLsbD b || (s.reg y).getLsbD b)) ∧
    (∃ t, exec (.and x y) s = .next t ∧ Frame (fun k => k = x) [] s t ∧
      ∀ b, b < 8 → (t.reg x).getLsbD b = ((s.reg x).getLsbD b && (s.reg y).getLsbD b)) ∧
    (∃ t, exec (.xor x y) s = .next t ∧ Frame (fun k => k = x) [] s t ∧
      ∀ b, b < 8 → (t.reg x).getLsbD b = ((s.reg x).getLsbD b != (s.reg y).getLsbD b))

/-- add and its carry (R138). That VF is written last, and so ends as the carry when X is F, is the spec's own
decision D7 (R131, log entry 10). -/
def Obligations.AddSetsTheCarry : Prop :=
  ∀ (x y : RegIdx) (s : State),
    Encodes (.add x y) (0x8004 + x.val * 256 + y.val * 16) ∧
    ∃ t, exec (.add x y) s = .next t ∧
      (x ≠ VF → (t.reg x).toNat = ((s.reg x).toNat + (s.reg y).toNat) % 256) ∧
      (t.reg VF).toNat = (if (s.reg x).toNat + (s.reg y).toNat > 255 then 1 else 0) ∧
      Frame (fun k => k = x ∨ k = VF) [] s t

/-- The subtractions and their strict flag (R139, R141). That VF is written last, and so ends as the flag when X is F,
is the spec's own decision D7 (R131, log entry 10). -/
def Obligations.SubtractionsSetTheStrictFlag : Prop :=
  ∀ (x y : RegIdx) (s : State),
    Encodes (.sub x y) (0x8005 + x.val * 256 + y.val * 16) ∧
    Encodes (.subYx x y) (0x8007 + x.val * 256 + y.val * 16) ∧
    (∃ t, exec (.sub x y) s = .next t ∧
      (x ≠ VF → ((t.reg x).toNat : Int) = ((s.reg x).toNat - (s.reg y).toNat : Int) % 256) ∧
      (t.reg VF).toNat = (if (s.reg x).toNat > (s.reg y).toNat then 1 else 0) ∧
      Frame (fun k => k = x ∨ k = VF) [] s t) ∧
    (∃ t, exec (.subYx x y) s = .next t ∧
      (x ≠ VF → ((t.reg x).toNat : Int) = ((s.reg y).toNat - (s.reg x).toNat : Int) % 256) ∧
      (t.reg VF).toNat = (if (s.reg y).toNat > (s.reg x).toNat then 1 else 0) ∧
      Frame (fun k => k = x ∨ k = VF) [] s t)

/-- R140, R142: the shifts take VY under CFG.SHIFT_VY and else VX, and record the lost bit nowhere. -/
def Obligations.ShiftsTakeTheConfiguredSource : Prop :=
  ∀ (x y r : RegIdx) (s : State), r = (if s.cfg.shiftVy = true then y else x) →
    Encodes (.shiftRight x y) (0x8006 + x.val * 256 + y.val * 16) ∧
    Encodes (.shiftLeft x y) (0x800E + x.val * 256 + y.val * 16) ∧
    (∃ t, exec (.shiftRight x y) s = .next t ∧ (t.reg x).toNat = (s.reg r).toNat / 2 ∧
      Frame (fun k => k = x) [] s t) ∧
    (∃ t, exec (.shiftLeft x y) s = .next t ∧ (t.reg x).toNat = (s.reg r).toNat * 2 % 256 ∧
      Frame (fun k => k = x) [] s t)

/-- random writes NN & rnd, for every byte rnd the host may supply (R143); that rnd is an input with no law is the
spec's own decision D9, and its place in State is the model's (log entry 1). -/
def Obligations.RandomMasksTheHostsByte : Prop :=
  ∀ (x : RegIdx) (nn rnd : Byte) (s : State),
    Encodes (.random x nn) (0xC000 + x.val * 256 + nn.toNat) ∧
    ∃ t, exec (.random x nn) { s with rnd := some rnd } = .next t ∧ Frame (fun k => k = x) [.random] s t ∧
      ∀ b, b < 8 → (t.reg x).getLsbD b = (nn.getLsbD b && rnd.getLsbD b)

/-- Where no byte is named, random writes NN & the free value at the counter, and the counter advances, so that no
later random reads the same draw (the model's form of the free input, log entry 1). -/
def Obligations.RandomDrawsAFreshFreeValue : Prop :=
  ∀ (x : RegIdx) (nn : Byte) (s : State), s.rnd = none →
    ∃ t, exec (.random x nn) s = .next t ∧ t.reg x = nn &&& Config.randomByte s.draws ∧ t.rnd = none ∧
      t.draws = s.draws + 1 ∧ Frame (fun k => k = x) [.random] s t

/-! ## Index and memory -/

/-- R171, R173: set-index clears bits 15:12, font-char points at the glyph of VX's low nibble. -/
def Obligations.IndexIsSetToAnAddressOrAGlyph : Prop :=
  ∀ (nnn : Addr12) (x : RegIdx) (s : State),
    Encodes (.setIndex nnn) (0xA000 + nnn.toNat) ∧
    Encodes (.fontChar x) (0xF029 + x.val * 256) ∧
    (∃ t, exec (.setIndex nnn) s = .next t ∧ t.i.toNat = nnn.toNat ∧ Frame noReg [.i] s t) ∧
    (∃ t, exec (.fontChar x) s = .next t ∧ t.i.toNat = 0x050 + 5 * ((s.reg x).toNat % 16) ∧ Frame noReg [.i] s t)

/-- add-index wraps I at 16 bits, and sets VF under the condition ADD_INDEX_FLAG selects; it never clears VF (R172).
The width and the two conditions are the spec's own decisions D3 and D4 (log entry 10). -/
def Obligations.AddIndexWrapsAndMaySetTheFlag : Prop :=
  ∀ (x : RegIdx) (s : State),
    Encodes (.addIndex x) (0xF01E + x.val * 256) ∧
    ∃ t, exec (.addIndex x) s = .next t ∧ t.i.toNat = (s.i.toNat + (s.reg x).toNat) % 65536 ∧
      Frame (fun k => k = VF) [.i] s t ∧
      (s.params.addIndexFlag = .range12 →
        t.reg VF = if s.i.toNat + (s.reg x).toNat > 0x0FFF then 1 else s.reg VF) ∧
      (s.params.addIndexFlag = .carry8 →
        t.reg VF = if s.i.toNat % 256 + (s.reg x).toNat > 0xFF then 1 else s.reg VF)

/-- bcd writes the three decimal digits at I, I + 1, I + 2, each where the write is not discarded; every other byte
reads as before (R174). The wrap of addresses and the discarded writes are the spec's own decisions D1 and D11 (log
entry 10). -/
def Obligations.BcdStoresTheDigits : Prop :=
  ∀ (x : RegIdx) (s : State), s.mem.wf = true →
    Encodes (.bcd x) (0xF033 + x.val * 256) ∧
    ∃ t, exec (.bcd x) s = .next t ∧ Frame noReg [.mem] s t ∧
      (∀ k, k < 3 → s.dataAddr k = s.i.toNat + k ∧
        (Discarded s (s.dataAddr k) → t.readByte (s.dataAddr k) = s.readByte (s.dataAddr k))) ∧
      (¬ Discarded s (s.dataAddr 0) → (t.readByte (s.dataAddr 0)).toNat = (s.reg x).toNat / 100) ∧
      (¬ Discarded s (s.dataAddr 1) → (t.readByte (s.dataAddr 1)).toNat = (s.reg x).toNat / 10 % 10) ∧
      (¬ Discarded s (s.dataAddr 2) → (t.readByte (s.dataAddr 2)).toNat = (s.reg x).toNat % 10) ∧
      (∀ a, (∀ k, k < 3 → ¬ SameCell a (s.dataAddr k)) → t.readByte a = s.readByte a)

/-- store writes V0..VX at I upward, each where the write is not discarded; every other byte reads as before; I
advances by X + 1 under CFG.LS_INC alone (R175). The wrap of addresses, the width of I and the discarded writes are
the spec's own decisions D1, D3 and D11 (log entry 10). -/
def Obligations.StoreWritesTheBlock : Prop :=
  ∀ (x : RegIdx) (s : State), s.mem.wf = true →
    Encodes (.store x) (0xF055 + x.val * 256) ∧
    ∃ t, exec (.store x) s = .next t ∧ Frame noReg [.mem, .i] s t ∧
      (∀ k : RegIdx, k.val ≤ x.val → s.dataAddr k.val = s.i.toNat + k.val ∧
        (¬ Discarded s (s.dataAddr k.val) → t.readByte (s.dataAddr k.val) = s.reg k) ∧
        (Discarded s (s.dataAddr k.val) → t.readByte (s.dataAddr k.val) = s.readByte (s.dataAddr k.val))) ∧
      (∀ a, (∀ k : RegIdx, k.val ≤ x.val → ¬ SameCell a (s.dataAddr k.val)) → t.readByte a = s.readByte a) ∧
      t.i.toNat = if s.cfg.lsInc = true then (s.i.toNat + x.val + 1) % 65536 else s.i.toNat

/-- R176: load reads V0..VX from I upward, each by MemRead; I advances by X + 1 under CFG.LS_INC alone. -/
def Obligations.LoadReadsTheBlock : Prop :=
  ∀ (x : RegIdx) (s : State),
    Encodes (.load x) (0xF065 + x.val * 256) ∧
    ∃ t, exec (.load x) s = .next t ∧ Frame (fun k => k.val ≤ x.val) [.i] s t ∧
      (∀ k : RegIdx, k.val ≤ x.val → t.reg k = s.readByte (s.i.toNat + k.val)) ∧
      t.i.toNat = if s.cfg.lsInc = true then (s.i.toNat + x.val + 1) % 65536 else s.i.toNat

/-- From R175, R176 and 90_conflicts.md C9: a load from the index of an earlier store recovers V0..VX, whatever the
registers hold in between, when no byte of the block is discarded. -/
def Obligations.LoadAfterStoreRecoversTheRegisters : Prop :=
  ∀ (x : RegIdx) (s : State) (v : Vector Byte 16), s.mem.wf = true →
    (∀ k : RegIdx, k.val ≤ x.val → ¬ Discarded s (s.i.toNat + k.val)) →
    ∃ t u, exec (.store x) s = .next t ∧ exec (.load x) { t with v := v, i := s.i } = .next u ∧
      ∀ k : RegIdx, k.val ≤ x.val → u.reg k = s.reg k

/-- From R52, R54 and R64, which the spec marks as its inferences: two registers stored where the next cycle fetches
are the word it fetches, high byte first. -/
def Obligations.FetchSeesStoredBytes : Prop :=
  ∀ (x : RegIdx) (s : State), s.mem.wf = true → 1 ≤ x.val →
    ¬ Discarded s s.i.toNat → ¬ Discarded s (s.i.toNat + 1) →
    ∃ t, exec (.store x) s = .next t ∧
      ∀ u : State, u.mem = t.mem → u.pc = s.i →
        u.fetchWord.toNat = (s.reg 0).toNat * 256 + (s.reg 1).toNat

/-! ## Display, keys, timers -/

/-- R192: clear turns every cell off and gives DC = 1. -/
def Obligations.ClearBlanksTheDisplay : Prop :=
  ∀ s : State, Encodes .clear 0x00E0 ∧
    ∃ t, exec .clear s = .next t ∧ t.dc = true ∧ (∀ y x, t.display.pixel y x = false) ∧
      Frame noReg [.display, .dc] s t

/-- R193: draw XORs the sprite's bits onto the display from (VX mod 64, VY mod 32), clipped at the edges, and VF ends
as the collision: 1 when a lit cell was turned off, else 0. -/
def Obligations.DrawXorsTheClippedSprite : Prop :=
  ∀ (x y : RegIdx) (n : RowCount) (s : State),
    Encodes (.draw x y n) (0xD000 + x.val * 256 + y.val * 16 + n.val) ∧
    ∃ t, exec (.draw x y n) s = .next t ∧ t.dc = true ∧ Frame (fun k => k = VF) [.display, .dc] s t ∧
      (∀ r c, t.display.pixel r c =
        (s.display.pixel r c != spriteBit s ((s.reg x).toNat % 64) ((s.reg y).toNat % 32) n.val r c)) ∧
      ((∃ r c, s.display.pixel r c = true ∧
          spriteBit s ((s.reg x).toNat % 64) ((s.reg y).toNat % 32) n.val r c = true) → (t.reg VF).toNat = 1) ∧
      ((∀ r c, s.display.pixel r c = true →
          spriteBit s ((s.reg x).toNat % 64) ((s.reg y).toNat % 32) n.val r c = false) → (t.reg VF).toNat = 0)

/-- From R193 (95_test_vectors.md E3): the same sprite drawn twice at the same place leaves the display as it was. -/
def Obligations.DrawingTwiceRestoresTheDisplay : Prop :=
  ∀ (x y : RegIdx) (n : RowCount) (s : State), x ≠ VF → y ≠ VF →
    ∃ t u, exec (.draw x y n) s = .next t ∧ exec (.draw x y n) t = .next u ∧ u.display = s.display

/-- The key skips test the key of VX's low four bits (R194, R195). That only the low four bits count is the spec's own
decision D8 (R191, log entry 10). -/
def Obligations.KeySkipsTestTheLowNibble : Prop :=
  ∀ (x : RegIdx) (k : Fin 16) (s : State), k.val = (s.reg x).toNat % 16 →
    Encodes (.skipIfKey x) (0xE09E + x.val * 256) ∧
    Encodes (.skipIfNotKey x) (0xE0A1 + x.val * 256) ∧
    (∃ t, exec (.skipIfKey x) s = .next t ∧ Frame noReg [.pc] s t ∧
      t.pc.toNat = if s.keys[k.val] = true then (s.pc.toNat + 2) % 65536 else s.pc.toNat) ∧
    (∃ t, exec (.skipIfNotKey x) s = .next t ∧ Frame noReg [.pc] s t ∧
      t.pc.toNat = if s.keys[k.val] = true then s.pc.toNat else (s.pc.toNat + 2) % 65536)

/-- R196: wait-key takes the lowest pressed key, and with none pressed goes back to its own address. -/
def Obligations.WaitKeyTakesTheLowestKeyOrRewinds : Prop :=
  ∀ (x : RegIdx) (s : State),
    Encodes (.waitKey x) (0xF00A + x.val * 256) ∧
    ((∀ k : Fin 16, s.keys[k.val] = false) →
      ∃ t, exec (.waitKey x) s = .next t ∧ t.pc = s.pc - 2 ∧ Frame noReg [.pc] s t) ∧
    (∀ k : Fin 16, s.keys[k.val] = true → (∀ j : Fin 16, j.val < k.val → s.keys[j.val] = false) →
      ∃ t, exec (.waitKey x) s = .next t ∧ (t.reg x).toNat = k.val ∧ Frame (fun r => r = x) [] s t)

/-- From R196, R238 and R266: while no key is pressed a wait-key spins: every cycle leaves the state as it was, PC
included, with DC = 0. -/
def Obligations.WaitKeySpinsUntilAKey : Prop :=
  ∀ (x : RegIdx) (s : State), s.halted = false → decode s.fetchWord = .ok (.waitKey x) →
    (∀ k : Fin 16, s.keys[k.val] = false) →
    ∀ n, Host.Core.run Sys2Proof.core (n + 1) s = .next (s.setDc false)

/-- R197, R198: get-delay reads DT, and set-delay writes it. -/
def Obligations.DelayTimerIsReadAndWritten : Prop :=
  ∀ (x : RegIdx) (s : State),
    Encodes (.getDelay x) (0xF007 + x.val * 256) ∧
    Encodes (.setDelay x) (0xF015 + x.val * 256) ∧
    (∃ t, exec (.getDelay x) s = .next t ∧ t.reg x = s.dt ∧ Frame (fun k => k = x) [] s t) ∧
    (∃ t, exec (.setDelay x) s = .next t ∧ t.dt = s.reg x ∧ Frame noReg [.dt] s t)

/-- set-sound writes ST, and SOUND_ON follows it (R199). The output SOUND_ON is the spec's own decision D24 (R39, log
entry 10). -/
def Obligations.SetSoundWritesTheSoundTimer : Prop :=
  ∀ (x : RegIdx) (s : State),
    Encodes (.setSound x) (0xF018 + x.val * 256) ∧
    (∃ t, exec (.setSound x) s = .next t ∧ t.st = s.reg x ∧ (t.soundOn = true ↔ (s.reg x).toNat ≠ 0) ∧
      Frame noReg [.st] s t)

/-! ## The host interface -/

/-- RESET builds the state of R41 from the parameters, a configuration and an image of at most 0xE00 bytes, and
refuses a longer one (R41, R250, R253). The values of I, D, K, FAULT and DC and the refusal are the spec's own
decisions D13, D14 and D22, the places of CFG's bits D23 (log entry 10); that the model's reset state is the one with
the defaults and no image is log entry 8. -/
def Obligations.ResetBuildsTheInitialState : Prop :=
  (∀ (cfg : BitVec 3) (image : List Byte) (s : State), image.length ≤ 0xE00 →
    ∃ t, hostAct (.reset cfg image) s = .next t ∧
      (∀ k, t.reg k = 0) ∧ t.i = 0 ∧ t.pc = 0x200 ∧ t.stack = [] ∧ t.dt = 0 ∧ t.st = 0 ∧
      (∀ a, a < 4096 → t.readByte a =
        if 0x050 ≤ a ∧ a ≤ 0x09F then s.params.font[a - 0x050]!
        else if 0x200 ≤ a ∧ a < 0x200 + image.length then image[a - 0x200]!
        else 0) ∧
      (∀ y x, t.display.pixel y x = false) ∧ (∀ k : Fin 16, t.keys[k.val] = false) ∧
      t.cfg.shiftVy = cfg.getLsbD 0 ∧ t.cfg.jumpVx = cfg.getLsbD 1 ∧ t.cfg.lsInc = cfg.getLsbD 2 ∧
      t.cfg.toBits = cfg ∧ t.fault.kind.code = 0 ∧ t.fault.word = 0 ∧ t.fault.fpc = 0 ∧
      t.dc = false ∧ t.soundOn = false ∧ t.params = s.params) ∧
  (∀ (cfg : BitVec 3) (image : List Byte) (s : State), 0xE00 < image.length →
    hostAct (.reset cfg image) s = .refused (.imageTooLarge image.length)) ∧
  hostAct (.reset 0 []) State.reset = .next State.reset

/-- A tick decrements each timer and stops at 0 (R230). The stop is the spec's own decision D15 (log entry 10). -/
def Obligations.TickStopsAtZero : Prop :=
  ∀ s : State, ∃ t, hostAct .tick s = .next t ∧ t.dt.toNat = s.dt.toNat - 1 ∧ t.st.toNat = s.st.toNat - 1 ∧
    Frame noReg [.dt, .st] s t

/-- What each host action changes, and that it changes nothing else; STEP is the cycle of R262 with its byte (R235).
The ports are the spec's own decision D21; how the byte of a STEP is held is the model's (log entries 1 and 10). -/
def Obligations.HostActionsChangeOnlyTheirOwn : Prop :=
  ∀ s : State,
    (∀ k, ∃ t, hostAct (.keysWr k) s = .next t ∧ t.keys = k ∧ Frame noReg [.keys] s t) ∧
    (∀ d, ∃ t, hostAct (.dispWr d) s = .next t ∧ t.display = d ∧ Frame noReg [.display] s t) ∧
    (∀ b, ∃ t, hostAct (.dtWr b) s = .next t ∧ t.dt = b ∧ Frame noReg [.dt] s t) ∧
    (∀ b, ∃ t, hostAct (.stWr b) s = .next t ∧ t.st = b ∧ Frame noReg [.st] s t) ∧
    (∀ b, ∃ t u, hostAct (.step b) s = .next t ∧ step { s with rnd := some b } = .next u ∧
      t.rnd = none ∧ t.v = u.v ∧ t.mem = u.mem ∧ Frame noReg [.random] u t)

/-- "Only random CXNN reads it" (R40): in a cycle STEP(rnd) that executes random, VX is NN & rnd; the byte of any
other STEP reaches nothing, and no byte reaches a later cycle (log entry 1). -/
def Obligations.StepByteReachesRandomAlone : Prop :=
  ∀ (b c : Byte) (s : State),
    ∃ t u, hostAct (.step b) s = .next t ∧ hostAct (.step c) s = .next u ∧
      ((s.halted = true ∨ ∀ x nn, decode s.fetchWord ≠ .ok (.random x nn)) → t = u) ∧
      (∀ x nn, s.halted = false → decode s.fetchWord = .ok (.random x nn) →
        t.reg x = nn &&& b ∧ u.reg x = nn &&& c ∧ Frame (fun k => k = x) [] t u)

/-! ## Assembly -/

/-- The assembly of R83 and R84, the spec's own decision D18: well-formed operands without a label give the
instruction of the mnemonic, and it assembles to the two bytes of exactly one word, which is the mnemonic's word of
R82 with the operands in their fields, and which decodes to the instruction; and a label where NNN is expected stands
for its address. -/
def Obligations.EachMnemonicAssemblesToOneWord : Prop :=
  (∀ (m : Mnemonic) (ops : List AsmOperand), operandsWf m.format ops = true → noLabel ops →
    ∃ i, toInstr m ops = some i ∧ i.mnemonic = m ∧
      ∀ table, ∃ hi lo, assembleLine table (.instr m ops) = some [hi, lo] ∧ decode (wordOfBytes hi lo) = .ok i ∧
        (wordOfBytes hi lo).toNat = m.matchBits.toNat + operandBits ops) ∧
  (∀ (m : Mnemonic) (table : List (String × Nat)) (name : String) (a : Nat), m.format = .nnn →
    table.find? (fun e => e.1 == name) = some (name, a) → a < 4096 →
    ∃ hi lo, assembleLine table (.instr m [.label name]) = some [hi, lo] ∧
      (wordOfBytes hi lo).toNat = m.matchBits.toNat + a)

/-! ## The end of a run -/

/-- Whatever the host does, RESET apart, a run ends in exactly one of the three ways of R255, or else hangs. The three
ends are the spec's own decision D25 (log entry 10), and the host's behaviour as a sequence of moments is the model's
(log entry 13). -/
def Obligations.EveryRunEndsInOneWayOrHangs : Prop :=
  ∀ (acts : HostBehaviour) (s : State), acts.NoReset → ∃! v, RunVerdict acts s v

/-- The two hangs R255 names, for a host that keeps requesting STEP: a wait-key spin that no key ever releases, and a
call to itself under STACK_DEPTH = none. What a hang is is the spec's own decision D25 (log entries 10 and 13). -/
def Obligations.UnreleasedWaitAndEndlessRecursionHang : Prop :=
  (∀ (x : RegIdx) (acts : HostBehaviour) (s : State), acts.NoReset → acts.KeepsStepping →
    s.halted = false → decode s.fetchWord = .ok (.waitKey x) → (∀ k : Fin 16, s.keys[k.val] = false) →
    (∀ n keys, acts n = some (.keysWr keys) → ∀ k : Fin 16, keys[k.val] = false) →
    Hangs acts s) ∧
  (∀ (acts : HostBehaviour) (s : State), acts.NoReset → acts.KeepsStepping →
    s.halted = false → s.params.stackDepth = none → s.pc.toNat ≤ 0xFFF →
    s.fetchWord.toNat = 0x2000 + s.pc.toNat →
    Hangs acts s)
end

