-- ==== Sys2Proof/Laws/Decode.lean ====
section
/-! SUPPORT. The fields and the layouts of a word as numbers; what the encoder puts in a field, the decoder reads
from it. -/

namespace Sys2Proof

/-! ### Fields as numbers (R71) -/

theorem opField_toNat (w : Word) : (opField w).toNat = w.toNat / 4096 := by
  have := w.isLt
  simp only [opField, BitVec.extractLsb'_toNat, Nat.shiftRight_eq_div_pow]
  omega

theorem xField_val (w : Word) : (xField w).val = w.toNat / 256 % 16 := by
  simp only [xField, ofNibble, BitVec.extractLsb'_toNat, Nat.shiftRight_eq_div_pow]

theorem yField_val (w : Word) : (yField w).val = w.toNat / 16 % 16 := by
  simp only [yField, ofNibble, BitVec.extractLsb'_toNat, Nat.shiftRight_eq_div_pow]

theorem nField_toNat (w : Word) : (nField w).toNat = w.toNat % 16 := by
  simp [nField]

theorem nnField_toNat (w : Word) : (nnField w).toNat = w.toNat % 256 := by
  simp [nnField]

theorem nnnField_toNat (w : Word) : (nnnField w).toNat = w.toNat % 4096 := by
  simp [nnnField]

/-! ### Words as numbers (R52, R72) -/

/-- The number two appended bit strings stand for. -/
theorem append_toNat {m n : Nat} (a : BitVec m) (b : BitVec n) : (a ++ b).toNat = a.toNat * 2 ^ n + b.toNat := by
  rw [BitVec.toNat_append, ← Nat.shiftLeft_add_eq_or_of_lt b.isLt, Nat.shiftLeft_eq]

@[simp] theorem toNibble_toNat (k : Fin 16) : (toNibble k).toNat = k.val := by simp [toNibble]

@[simp] theorem ofNibble_val (b : BitVec 4) : (ofNibble b).val = b.toNat := rfl

theorem layoutNNN_toNat (op : BitVec 4) (nnn : Addr12) : (layoutNNN op nnn).toNat = op.toNat * 4096 + nnn.toNat :=
  append_toNat op nnn

theorem layoutXNN_toNat (op : BitVec 4) (x : RegIdx) (nn : Byte) :
    (layoutXNN op x nn).toNat = op.toNat * 4096 + x.val * 256 + nn.toNat := by
  have h : (layoutXNN op x nn).toNat = (op ++ toNibble x).toNat * 2 ^ 8 + nn.toNat := append_toNat _ nn
  rw [h, append_toNat, toNibble_toNat]
  omega

theorem layoutXYN_toNat (op : BitVec 4) (x y : RegIdx) (n : BitVec 4) :
    (layoutXYN op x y n).toNat = op.toNat * 4096 + x.val * 256 + y.val * 16 + n.toNat := by
  have h : (layoutXYN op x y n).toNat = (op ++ toNibble x ++ toNibble y).toNat * 2 ^ 4 + n.toNat :=
    append_toNat _ n
  rw [h, append_toNat, append_toNat, toNibble_toNat, toNibble_toNat]
  omega

/-- The value of a fetched word: the byte at the lower address counts 256 (R52). -/
theorem wordOfBytes_toNat (hi lo : Byte) : (wordOfBytes hi lo).toNat = hi.toNat * 256 + lo.toNat :=
  append_toNat hi lo

theorem highByte_toNat (w : Word) : (highByte w).toNat = w.toNat / 256 := by
  have := w.isLt
  simp only [highByte, BitVec.extractLsb'_toNat, Nat.shiftRight_eq_div_pow]
  omega

theorem lowByte_toNat (w : Word) : (lowByte w).toNat = w.toNat % 256 := by
  simp [lowByte]

/-- The decoder reads the word its two bytes were cut from. -/
@[simp] theorem wordOfBytes_high_low (w : Word) : wordOfBytes (highByte w) (lowByte w) = w := by
  apply BitVec.eq_of_toNat_eq
  rw [wordOfBytes_toNat, highByte_toNat, lowByte_toNat]
  omega

/-! ### Fields of the layouts -/

@[simp] theorem opField_layoutNNN (op : BitVec 4) (nnn : Addr12) : opField (layoutNNN op nnn) = op := by
  have := nnn.isLt
  apply BitVec.eq_of_toNat_eq
  rw [opField_toNat, layoutNNN_toNat]
  omega

@[simp] theorem nnnField_layoutNNN (op : BitVec 4) (nnn : Addr12) : nnnField (layoutNNN op nnn) = nnn := by
  have := nnn.isLt
  apply BitVec.eq_of_toNat_eq
  rw [nnnField_toNat, layoutNNN_toNat]
  omega

@[simp] theorem opField_layoutXNN (op : BitVec 4) (x : RegIdx) (nn : Byte) : opField (layoutXNN op x nn) = op := by
  have := nn.isLt
  have := x.isLt
  apply BitVec.eq_of_toNat_eq
  rw [opField_toNat, layoutXNN_toNat]
  omega

@[simp] theorem xField_layoutXNN (op : BitVec 4) (x : RegIdx) (nn : Byte) : xField (layoutXNN op x nn) = x := by
  have := nn.isLt
  have := x.isLt
  apply Fin.ext
  rw [xField_val, layoutXNN_toNat]
  omega

@[simp] theorem nnField_layoutXNN (op : BitVec 4) (x : RegIdx) (nn : Byte) : nnField (layoutXNN op x nn) = nn := by
  have := nn.isLt
  apply BitVec.eq_of_toNat_eq
  rw [nnField_toNat, layoutXNN_toNat]
  omega

@[simp] theorem opField_layoutXYN (op : BitVec 4) (x y : RegIdx) (n : BitVec 4) :
    opField (layoutXYN op x y n) = op := by
  have := n.isLt
  have := x.isLt
  have := y.isLt
  apply BitVec.eq_of_toNat_eq
  rw [opField_toNat, layoutXYN_toNat]
  omega

@[simp] theorem xField_layoutXYN (op : BitVec 4) (x y : RegIdx) (n : BitVec 4) :
    xField (layoutXYN op x y n) = x := by
  have := n.isLt
  have := x.isLt
  have := y.isLt
  apply Fin.ext
  rw [xField_val, layoutXYN_toNat]
  omega

@[simp] theorem yField_layoutXYN (op : BitVec 4) (x y : RegIdx) (n : BitVec 4) :
    yField (layoutXYN op x y n) = y := by
  have := n.isLt
  have := y.isLt
  apply Fin.ext
  rw [yField_val, layoutXYN_toNat]
  omega

@[simp] theorem nField_layoutXYN (op : BitVec 4) (x y : RegIdx) (n : BitVec 4) :
    nField (layoutXYN op x y n) = n := by
  have := n.isLt
  apply BitVec.eq_of_toNat_eq
  rw [nField_toNat, layoutXYN_toNat]
  omega

/-! ### The fixed bits of a format (R82) -/

/-- Masking a word by 0xF000 keeps its op field. -/
theorem and_F000 (w : Word) : w &&& 0xF000 = BitVec.ofNat 16 ((opField w).toNat * 4096) := by
  apply BitVec.eq_of_getLsbD_eq
  intro i hi
  have hw : (BitVec.ofNat 16 ((opField w).toNat * 4096)) = (opField w ++ (0 : BitVec 12)) := by
    apply BitVec.eq_of_toNat_eq
    rw [append_toNat]
    have := (opField w).isLt
    simp
    omega
  rw [hw]
  have hopen : (opField w ++ (0 : BitVec 12)).getLsbD i = if i < 12 then false else (opField w).getLsbD (i - 12) := by
    rw [BitVec.getLsbD_append]; simp
  rw [hopen]
  interval_cases i <;> simp [opField]

/-- Masking a word by 0xF00F keeps its op field and its last nibble. -/
theorem and_F00F (w : Word) :
    w &&& 0xF00F = BitVec.ofNat 16 ((opField w).toNat * 4096 + (nField w).toNat) := by
  have hw : BitVec.ofNat 16 ((opField w).toNat * 4096 + (nField w).toNat) = opField w ++ (0 : BitVec 8) ++ nField w := by
    apply BitVec.eq_of_toNat_eq
    rw [append_toNat, append_toNat]
    have := (opField w).isLt
    have := (nField w).isLt
    simp
    omega
  rw [hw]
  apply BitVec.eq_of_getLsbD_eq
  intro i hi
  have hopen : (opField w ++ (0 : BitVec 8) ++ nField w).getLsbD i =
      if i < 4 then (nField w).getLsbD i else if i - 4 < 8 then false else (opField w).getLsbD (i - 4 - 8) := by
    rw [BitVec.getLsbD_append, BitVec.getLsbD_append]; simp
  rw [hopen]
  interval_cases i <;> simp [opField, nField]

/-- Masking a word by 0xF0FF keeps its op field and its last byte. -/
theorem and_F0FF (w : Word) :
    w &&& 0xF0FF = BitVec.ofNat 16 ((opField w).toNat * 4096 + (nnField w).toNat) := by
  have hw : BitVec.ofNat 16 ((opField w).toNat * 4096 + (nnField w).toNat) = opField w ++ (0 : BitVec 4) ++ nnField w := by
    apply BitVec.eq_of_toNat_eq
    rw [append_toNat, append_toNat]
    have := (opField w).isLt
    have := (nnField w).isLt
    simp
    omega
  rw [hw]
  apply BitVec.eq_of_getLsbD_eq
  intro i hi
  have hopen : (opField w ++ (0 : BitVec 4) ++ nnField w).getLsbD i =
      if i < 8 then (nnField w).getLsbD i else if i - 8 < 4 then false else (opField w).getLsbD (i - 8 - 4) := by
    rw [BitVec.getLsbD_append, BitVec.getLsbD_append]; simp
  rw [hopen]
  interval_cases i <;> simp [opField, nnField]

end Sys2Proof
end

