-- ==== Sys2Proof/Laws/Memory.lean ====
section
/-! SUPPORT. The memory operations: what a cell reads as after each, and that each keeps the canonical form. -/

namespace Sys2Proof.Machine

@[simp] theorem portAddr_lt (a : Nat) : portAddr a < 4096 := Nat.mod_lt _ (by decide)

@[simp] theorem portAddr_portAddr (a : Nat) : portAddr (portAddr a) = portAddr a := Nat.mod_mod _ _

theorem portAddr_of_lt {a : Nat} (h : a < 4096) : portAddr a = a := Nat.mod_eq_of_lt h

/-- The canonical form of a memory with a first cell. -/
theorem Memory.wf_cons {a : Nat} {x : Byte} {m : Memory} :
    Memory.wf ((a, x) :: m) = true ↔
      a < 4096 ∧ x ≠ Memory.background a ∧ (∀ c ∈ m, a < c.1) ∧ Memory.wf m = true := by
  simp [Memory.wf, and_assoc]

/-- A cell below all listed addresses reads as an unlisted one. -/
theorem Memory.cell_of_below {m : Memory} {a : Nat} (h : ∀ c ∈ m, a < c.1) :
    m.cell a = Memory.background a := by
  induction m with
  | nil => rfl
  | cons c m ih =>
    obtain ⟨b, u⟩ := c
    have hb : a < b := h (b, u) (by simp)
    have : a ≠ b := by omega
    simp [Memory.cell, this, ih (fun c hc => h c (by simp [hc]))]

theorem Memory.cell_insert (m : Memory) (a b : Nat) (x : Byte) :
    (m.insert a x).cell b = if b = a then x else m.cell b := by
  induction m with
  | nil => by_cases h : b = a <;> simp [Memory.insert, Memory.cell, h]
  | cons c m ih =>
    obtain ⟨d, u⟩ := c
    simp only [Memory.insert]
    split
    · by_cases h : b = a <;> simp [Memory.cell, h]
    · split
      · subst_vars; by_cases h : b = d <;> simp [Memory.cell, h]
      · simp only [Memory.cell, ih]
        by_cases h : b = d
        · subst h; simp; intro h'; omega
        · simp [h]

theorem Memory.mem_insert {m : Memory} {a : Nat} {x : Byte} {c : Host.Cell} (h : c ∈ m.insert a x) :
    c = (a, x) ∨ c ∈ m := by
  induction m with
  | nil => simpa [Memory.insert] using h
  | cons d m ih =>
    simp only [Memory.insert] at h
    split at h
    · simpa using h
    · split at h
      · simp at h; rcases h with h | h <;> simp [h]
      · rcases List.mem_cons.mp h with h | h
        · simp [h]
        · rcases ih h with h | h <;> simp [h]

theorem Memory.mem_of_mem_erase {m : Memory} {a : Nat} {c : Host.Cell} (h : c ∈ m.erase a) : c ∈ m := by
  induction m with
  | nil => exact h
  | cons d m ih =>
    simp only [Memory.erase] at h
    split at h
    · simp [h]
    · rcases List.mem_cons.mp h with h | h
      · simp [h]
      · simp [ih h]

theorem Memory.cell_erase {m : Memory} (hm : m.wf = true) (a b : Nat) :
    (m.erase a).cell b = if b = a then Memory.background b else m.cell b := by
  induction m with
  | nil => simp [Memory.erase, Memory.cell]
  | cons c m ih =>
    obtain ⟨d, u⟩ := c
    obtain ⟨-, -, hd, hm⟩ := Memory.wf_cons.mp hm
    simp only [Memory.erase]
    split
    · subst_vars
      by_cases h : b = d
      · subst h; simp [Memory.cell_of_below hd]
      · simp [Memory.cell, h]
    · simp only [Memory.cell, ih hm]
      by_cases h : b = d
      · subst h; simp; intro h'; omega
      · simp [h]

/-- A read after a write gives the value written, and every other cell reads as before. -/
theorem Memory.cell_setCell {m : Memory} (hm : m.wf = true) (a b : Nat) (x : Byte) :
    (m.setCell a x).cell b = if b = a then x else m.cell b := by
  unfold Memory.setCell
  split
  · rw [Memory.cell_erase hm]; split <;> simp_all
  · exact Memory.cell_insert m a b x

/-- A write leaves every other cell as it was, in canonical form or not. -/
theorem Memory.cell_setCell_other (m : Memory) {a b : Nat} (h : b ≠ a) (x : Byte) :
    (m.setCell a x).cell b = m.cell b := by
  unfold Memory.setCell
  split
  · induction m with
    | nil => rfl
    | cons c m ih =>
      simp only [Memory.erase]
      split
      · simp_all [Memory.cell]
      · simp only [Memory.cell, ih]
  · rw [Memory.cell_insert, if_neg h]

theorem Memory.wf_erase {m : Memory} (hm : m.wf = true) (a : Nat) : (m.erase a).wf = true := by
  induction m with
  | nil => rfl
  | cons c m ih =>
    obtain ⟨d, u⟩ := c
    obtain ⟨h1, h2, hd, hm⟩ := Memory.wf_cons.mp hm
    simp only [Memory.erase]
    split
    · exact hm
    · exact Memory.wf_cons.mpr ⟨h1, h2, fun c hc => hd c (Memory.mem_of_mem_erase hc), ih hm⟩

theorem Memory.wf_insert {m : Memory} (hm : m.wf = true) {a : Nat} (ha : a < 4096) {x : Byte}
    (hx : x ≠ Memory.background a) : (m.insert a x).wf = true := by
  induction m with
  | nil => exact Memory.wf_cons.mpr ⟨ha, hx, by simp, rfl⟩
  | cons c m ih =>
    obtain ⟨d, u⟩ := c
    obtain ⟨h1, h2, hd, hm'⟩ := Memory.wf_cons.mp hm
    simp only [Memory.insert]
    split
    · refine Memory.wf_cons.mpr ⟨ha, hx, fun c hc => ?_, hm⟩
      rcases List.mem_cons.mp hc with rfl | hc
      · assumption
      · have := hd c hc; omega
    · split
      · subst_vars; exact Memory.wf_cons.mpr ⟨ha, hx, hd, hm'⟩
      · refine Memory.wf_cons.mpr ⟨h1, h2, fun c hc => ?_, ih hm'⟩
        rcases Memory.mem_insert hc with rfl | hc
        · simp only; omega
        · exact hd c hc

/-- Writing a cell keeps the canonical form. -/
theorem Memory.wf_setCell {m : Memory} (hm : m.wf = true) {a : Nat} (ha : a < 4096) (x : Byte) :
    (m.setCell a x).wf = true := by
  unfold Memory.setCell
  split
  · exact Memory.wf_erase hm a
  · exact Memory.wf_insert hm ha ‹_›

/-- Laying bytes into memory keeps the canonical form. -/
theorem Memory.wf_lay {m : Memory} (hm : m.wf = true) (a : Nat) (xs : List Byte) : (m.lay a xs).wf = true := by
  induction xs generalizing m a with
  | nil => exact hm
  | cons x xs ih => exact ih (Memory.wf_setCell hm (portAddr_lt a) x) (a + 1)

/-- The memory after RESET is in canonical form. -/
theorem resetMemory_wf (p : Config.Params) (image : List Byte) : (resetMemory p image).wf = true :=
  Memory.wf_lay (Memory.wf_lay rfl _ _) _ _

/-- After bytes are laid from `a` up without passing 0xFFF, each of their cells reads as its byte and every other cell as
before. -/
theorem Memory.cell_lay {m : Memory} (hm : m.wf = true) (a : Nat) (xs : List Byte) (hx : a + xs.length ≤ 4096)
    (b : Nat) : (m.lay a xs).cell b = if a ≤ b ∧ b < a + xs.length then xs.getD (b - a) 0 else m.cell b := by
  induction xs generalizing m a with
  | nil => simp [Memory.lay]
  | cons x xs ih =>
    simp only [List.length_cons] at hx
    simp only [Memory.lay]
    rw [ih (Memory.wf_setCell hm (portAddr_lt a) x) (a + 1) (by omega),
      Memory.cell_setCell hm, portAddr_of_lt (by omega)]
    by_cases h1 : b = a
    · subst h1; simp
    · by_cases h2 : a + 1 ≤ b ∧ b < a + 1 + xs.length
      · have e : b - a = (b - (a + 1)) + 1 := by omega
        rw [if_pos h2, if_pos (by simp; omega), e, List.getD_cons_succ]
      · rw [if_neg h2, if_neg h1, if_neg (by simp; omega)]

end Sys2Proof.Machine
end

