-- ==== Sys2Proof/Laws/State.lean ====
section
/-! SUPPORT. For each update of the state, each field after it. -/

namespace Sys2Proof.Machine

/-! ### `State.setReg` -/

section
variable (s : State) (k : RegIdx) (x : Byte)

@[simp] theorem State.setReg_v : (s.setReg k x).v = s.v.set k.val x := rfl
@[simp] theorem State.setReg_i : (s.setReg k x).i = s.i := rfl
@[simp] theorem State.setReg_pc : (s.setReg k x).pc = s.pc := rfl
@[simp] theorem State.setReg_stack : (s.setReg k x).stack = s.stack := rfl
@[simp] theorem State.setReg_dt : (s.setReg k x).dt = s.dt := rfl
@[simp] theorem State.setReg_st : (s.setReg k x).st = s.st := rfl
@[simp] theorem State.setReg_mem : (s.setReg k x).mem = s.mem := rfl
@[simp] theorem State.setReg_display : (s.setReg k x).display = s.display := rfl
@[simp] theorem State.setReg_keys : (s.setReg k x).keys = s.keys := rfl
@[simp] theorem State.setReg_cfg : (s.setReg k x).cfg = s.cfg := rfl
@[simp] theorem State.setReg_fault : (s.setReg k x).fault = s.fault := rfl
@[simp] theorem State.setReg_dc : (s.setReg k x).dc = s.dc := rfl
@[simp] theorem State.setReg_params : (s.setReg k x).params = s.params := rfl
@[simp] theorem State.setReg_rnd : (s.setReg k x).rnd = s.rnd := rfl
@[simp] theorem State.setReg_draws : (s.setReg k x).draws = s.draws := rfl
@[simp] theorem State.setReg_readByte (j : Nat) : (s.setReg k x).readByte j = s.readByte j := rfl
@[simp] theorem State.setReg_halted : (s.setReg k x).halted = s.halted := rfl

end

/-! ### `State.setIndex` -/

section
variable (s : State) (x : Word)

@[simp] theorem State.setIndex_v : (s.setIndex x).v = s.v := rfl
@[simp] theorem State.setIndex_i : (s.setIndex x).i = x := rfl
@[simp] theorem State.setIndex_pc : (s.setIndex x).pc = s.pc := rfl
@[simp] theorem State.setIndex_stack : (s.setIndex x).stack = s.stack := rfl
@[simp] theorem State.setIndex_dt : (s.setIndex x).dt = s.dt := rfl
@[simp] theorem State.setIndex_st : (s.setIndex x).st = s.st := rfl
@[simp] theorem State.setIndex_mem : (s.setIndex x).mem = s.mem := rfl
@[simp] theorem State.setIndex_display : (s.setIndex x).display = s.display := rfl
@[simp] theorem State.setIndex_keys : (s.setIndex x).keys = s.keys := rfl
@[simp] theorem State.setIndex_cfg : (s.setIndex x).cfg = s.cfg := rfl
@[simp] theorem State.setIndex_fault : (s.setIndex x).fault = s.fault := rfl
@[simp] theorem State.setIndex_dc : (s.setIndex x).dc = s.dc := rfl
@[simp] theorem State.setIndex_params : (s.setIndex x).params = s.params := rfl
@[simp] theorem State.setIndex_rnd : (s.setIndex x).rnd = s.rnd := rfl
@[simp] theorem State.setIndex_draws : (s.setIndex x).draws = s.draws := rfl
@[simp] theorem State.setIndex_reg (j : RegIdx) : (s.setIndex x).reg j = s.reg j := rfl
@[simp] theorem State.setIndex_readByte (j : Nat) : (s.setIndex x).readByte j = s.readByte j := rfl
@[simp] theorem State.setIndex_halted : (s.setIndex x).halted = s.halted := rfl

end

/-! ### `State.setPc` -/

section
variable (s : State) (x : Word)

@[simp] theorem State.setPc_v : (s.setPc x).v = s.v := rfl
@[simp] theorem State.setPc_i : (s.setPc x).i = s.i := rfl
@[simp] theorem State.setPc_pc : (s.setPc x).pc = x := rfl
@[simp] theorem State.setPc_stack : (s.setPc x).stack = s.stack := rfl
@[simp] theorem State.setPc_dt : (s.setPc x).dt = s.dt := rfl
@[simp] theorem State.setPc_st : (s.setPc x).st = s.st := rfl
@[simp] theorem State.setPc_mem : (s.setPc x).mem = s.mem := rfl
@[simp] theorem State.setPc_display : (s.setPc x).display = s.display := rfl
@[simp] theorem State.setPc_keys : (s.setPc x).keys = s.keys := rfl
@[simp] theorem State.setPc_cfg : (s.setPc x).cfg = s.cfg := rfl
@[simp] theorem State.setPc_fault : (s.setPc x).fault = s.fault := rfl
@[simp] theorem State.setPc_dc : (s.setPc x).dc = s.dc := rfl
@[simp] theorem State.setPc_params : (s.setPc x).params = s.params := rfl
@[simp] theorem State.setPc_rnd : (s.setPc x).rnd = s.rnd := rfl
@[simp] theorem State.setPc_draws : (s.setPc x).draws = s.draws := rfl
@[simp] theorem State.setPc_reg (j : RegIdx) : (s.setPc x).reg j = s.reg j := rfl
@[simp] theorem State.setPc_readByte (j : Nat) : (s.setPc x).readByte j = s.readByte j := rfl
@[simp] theorem State.setPc_halted : (s.setPc x).halted = s.halted := rfl

end

/-! ### `State.push` -/

section
variable (s : State) (x : Word)

@[simp] theorem State.push_v : (s.push x).v = s.v := rfl
@[simp] theorem State.push_i : (s.push x).i = s.i := rfl
@[simp] theorem State.push_pc : (s.push x).pc = s.pc := rfl
@[simp] theorem State.push_stack : (s.push x).stack = x :: s.stack := rfl
@[simp] theorem State.push_dt : (s.push x).dt = s.dt := rfl
@[simp] theorem State.push_st : (s.push x).st = s.st := rfl
@[simp] theorem State.push_mem : (s.push x).mem = s.mem := rfl
@[simp] theorem State.push_display : (s.push x).display = s.display := rfl
@[simp] theorem State.push_keys : (s.push x).keys = s.keys := rfl
@[simp] theorem State.push_cfg : (s.push x).cfg = s.cfg := rfl
@[simp] theorem State.push_fault : (s.push x).fault = s.fault := rfl
@[simp] theorem State.push_dc : (s.push x).dc = s.dc := rfl
@[simp] theorem State.push_params : (s.push x).params = s.params := rfl
@[simp] theorem State.push_rnd : (s.push x).rnd = s.rnd := rfl
@[simp] theorem State.push_draws : (s.push x).draws = s.draws := rfl
@[simp] theorem State.push_reg (j : RegIdx) : (s.push x).reg j = s.reg j := rfl
@[simp] theorem State.push_readByte (j : Nat) : (s.push x).readByte j = s.readByte j := rfl
@[simp] theorem State.push_halted : (s.push x).halted = s.halted := rfl

end

/-! ### `State.dropTop` -/

section
variable (s : State)

@[simp] theorem State.dropTop_v : s.dropTop.v = s.v := rfl
@[simp] theorem State.dropTop_i : s.dropTop.i = s.i := rfl
@[simp] theorem State.dropTop_pc : s.dropTop.pc = s.pc := rfl
@[simp] theorem State.dropTop_stack : s.dropTop.stack = s.stack.tail := rfl
@[simp] theorem State.dropTop_dt : s.dropTop.dt = s.dt := rfl
@[simp] theorem State.dropTop_st : s.dropTop.st = s.st := rfl
@[simp] theorem State.dropTop_mem : s.dropTop.mem = s.mem := rfl
@[simp] theorem State.dropTop_display : s.dropTop.display = s.display := rfl
@[simp] theorem State.dropTop_keys : s.dropTop.keys = s.keys := rfl
@[simp] theorem State.dropTop_cfg : s.dropTop.cfg = s.cfg := rfl
@[simp] theorem State.dropTop_fault : s.dropTop.fault = s.fault := rfl
@[simp] theorem State.dropTop_dc : s.dropTop.dc = s.dc := rfl
@[simp] theorem State.dropTop_params : s.dropTop.params = s.params := rfl
@[simp] theorem State.dropTop_rnd : s.dropTop.rnd = s.rnd := rfl
@[simp] theorem State.dropTop_draws : s.dropTop.draws = s.draws := rfl
@[simp] theorem State.dropTop_reg (j : RegIdx) : s.dropTop.reg j = s.reg j := rfl
@[simp] theorem State.dropTop_readByte (j : Nat) : s.dropTop.readByte j = s.readByte j := rfl
@[simp] theorem State.dropTop_halted : s.dropTop.halted = s.halted := rfl

end

/-! ### `State.setDelay` -/

section
variable (s : State) (x : Byte)

@[simp] theorem State.setDelay_v : (s.setDelay x).v = s.v := rfl
@[simp] theorem State.setDelay_i : (s.setDelay x).i = s.i := rfl
@[simp] theorem State.setDelay_pc : (s.setDelay x).pc = s.pc := rfl
@[simp] theorem State.setDelay_stack : (s.setDelay x).stack = s.stack := rfl
@[simp] theorem State.setDelay_dt : (s.setDelay x).dt = x := rfl
@[simp] theorem State.setDelay_st : (s.setDelay x).st = s.st := rfl
@[simp] theorem State.setDelay_mem : (s.setDelay x).mem = s.mem := rfl
@[simp] theorem State.setDelay_display : (s.setDelay x).display = s.display := rfl
@[simp] theorem State.setDelay_keys : (s.setDelay x).keys = s.keys := rfl
@[simp] theorem State.setDelay_cfg : (s.setDelay x).cfg = s.cfg := rfl
@[simp] theorem State.setDelay_fault : (s.setDelay x).fault = s.fault := rfl
@[simp] theorem State.setDelay_dc : (s.setDelay x).dc = s.dc := rfl
@[simp] theorem State.setDelay_params : (s.setDelay x).params = s.params := rfl
@[simp] theorem State.setDelay_rnd : (s.setDelay x).rnd = s.rnd := rfl
@[simp] theorem State.setDelay_draws : (s.setDelay x).draws = s.draws := rfl
@[simp] theorem State.setDelay_reg (j : RegIdx) : (s.setDelay x).reg j = s.reg j := rfl
@[simp] theorem State.setDelay_readByte (j : Nat) : (s.setDelay x).readByte j = s.readByte j := rfl
@[simp] theorem State.setDelay_halted : (s.setDelay x).halted = s.halted := rfl

end

/-! ### `State.setSound` -/

section
variable (s : State) (x : Byte)

@[simp] theorem State.setSound_v : (s.setSound x).v = s.v := rfl
@[simp] theorem State.setSound_i : (s.setSound x).i = s.i := rfl
@[simp] theorem State.setSound_pc : (s.setSound x).pc = s.pc := rfl
@[simp] theorem State.setSound_stack : (s.setSound x).stack = s.stack := rfl
@[simp] theorem State.setSound_dt : (s.setSound x).dt = s.dt := rfl
@[simp] theorem State.setSound_st : (s.setSound x).st = x := rfl
@[simp] theorem State.setSound_mem : (s.setSound x).mem = s.mem := rfl
@[simp] theorem State.setSound_display : (s.setSound x).display = s.display := rfl
@[simp] theorem State.setSound_keys : (s.setSound x).keys = s.keys := rfl
@[simp] theorem State.setSound_cfg : (s.setSound x).cfg = s.cfg := rfl
@[simp] theorem State.setSound_fault : (s.setSound x).fault = s.fault := rfl
@[simp] theorem State.setSound_dc : (s.setSound x).dc = s.dc := rfl
@[simp] theorem State.setSound_params : (s.setSound x).params = s.params := rfl
@[simp] theorem State.setSound_rnd : (s.setSound x).rnd = s.rnd := rfl
@[simp] theorem State.setSound_draws : (s.setSound x).draws = s.draws := rfl
@[simp] theorem State.setSound_reg (j : RegIdx) : (s.setSound x).reg j = s.reg j := rfl
@[simp] theorem State.setSound_readByte (j : Nat) : (s.setSound x).readByte j = s.readByte j := rfl
@[simp] theorem State.setSound_halted : (s.setSound x).halted = s.halted := rfl

end

/-! ### `State.setDc` -/

section
variable (s : State) (x : Bool)

@[simp] theorem State.setDc_v : (s.setDc x).v = s.v := rfl
@[simp] theorem State.setDc_i : (s.setDc x).i = s.i := rfl
@[simp] theorem State.setDc_pc : (s.setDc x).pc = s.pc := rfl
@[simp] theorem State.setDc_stack : (s.setDc x).stack = s.stack := rfl
@[simp] theorem State.setDc_dt : (s.setDc x).dt = s.dt := rfl
@[simp] theorem State.setDc_st : (s.setDc x).st = s.st := rfl
@[simp] theorem State.setDc_mem : (s.setDc x).mem = s.mem := rfl
@[simp] theorem State.setDc_display : (s.setDc x).display = s.display := rfl
@[simp] theorem State.setDc_keys : (s.setDc x).keys = s.keys := rfl
@[simp] theorem State.setDc_cfg : (s.setDc x).cfg = s.cfg := rfl
@[simp] theorem State.setDc_fault : (s.setDc x).fault = s.fault := rfl
@[simp] theorem State.setDc_dc : (s.setDc x).dc = x := rfl
@[simp] theorem State.setDc_params : (s.setDc x).params = s.params := rfl
@[simp] theorem State.setDc_rnd : (s.setDc x).rnd = s.rnd := rfl
@[simp] theorem State.setDc_draws : (s.setDc x).draws = s.draws := rfl
@[simp] theorem State.setDc_reg (j : RegIdx) : (s.setDc x).reg j = s.reg j := rfl
@[simp] theorem State.setDc_readByte (j : Nat) : (s.setDc x).readByte j = s.readByte j := rfl
@[simp] theorem State.setDc_halted : (s.setDc x).halted = s.halted := rfl

end

/-! ### `State.setDisplay` -/

section
variable (s : State) (d : Display)

@[simp] theorem State.setDisplay_v : (s.setDisplay d).v = s.v := rfl
@[simp] theorem State.setDisplay_i : (s.setDisplay d).i = s.i := rfl
@[simp] theorem State.setDisplay_pc : (s.setDisplay d).pc = s.pc := rfl
@[simp] theorem State.setDisplay_stack : (s.setDisplay d).stack = s.stack := rfl
@[simp] theorem State.setDisplay_dt : (s.setDisplay d).dt = s.dt := rfl
@[simp] theorem State.setDisplay_st : (s.setDisplay d).st = s.st := rfl
@[simp] theorem State.setDisplay_mem : (s.setDisplay d).mem = s.mem := rfl
@[simp] theorem State.setDisplay_display : (s.setDisplay d).display = d := rfl
@[simp] theorem State.setDisplay_keys : (s.setDisplay d).keys = s.keys := rfl
@[simp] theorem State.setDisplay_cfg : (s.setDisplay d).cfg = s.cfg := rfl
@[simp] theorem State.setDisplay_fault : (s.setDisplay d).fault = s.fault := rfl
@[simp] theorem State.setDisplay_dc : (s.setDisplay d).dc = s.dc := rfl
@[simp] theorem State.setDisplay_params : (s.setDisplay d).params = s.params := rfl
@[simp] theorem State.setDisplay_rnd : (s.setDisplay d).rnd = s.rnd := rfl
@[simp] theorem State.setDisplay_draws : (s.setDisplay d).draws = s.draws := rfl
@[simp] theorem State.setDisplay_reg (j : RegIdx) : (s.setDisplay d).reg j = s.reg j := rfl
@[simp] theorem State.setDisplay_readByte (j : Nat) : (s.setDisplay d).readByte j = s.readByte j := rfl
@[simp] theorem State.setDisplay_halted : (s.setDisplay d).halted = s.halted := rfl

end

/-! ### `State.pokeByte` -/

section
variable (s : State) (a : Nat) (x : Byte)

@[simp] theorem State.pokeByte_v : (s.pokeByte a x).v = s.v := rfl
@[simp] theorem State.pokeByte_i : (s.pokeByte a x).i = s.i := rfl
@[simp] theorem State.pokeByte_pc : (s.pokeByte a x).pc = s.pc := rfl
@[simp] theorem State.pokeByte_stack : (s.pokeByte a x).stack = s.stack := rfl
@[simp] theorem State.pokeByte_dt : (s.pokeByte a x).dt = s.dt := rfl
@[simp] theorem State.pokeByte_st : (s.pokeByte a x).st = s.st := rfl
@[simp] theorem State.pokeByte_mem : (s.pokeByte a x).mem = s.mem.setCell (portAddr a) x := rfl
@[simp] theorem State.pokeByte_display : (s.pokeByte a x).display = s.display := rfl
@[simp] theorem State.pokeByte_keys : (s.pokeByte a x).keys = s.keys := rfl
@[simp] theorem State.pokeByte_cfg : (s.pokeByte a x).cfg = s.cfg := rfl
@[simp] theorem State.pokeByte_fault : (s.pokeByte a x).fault = s.fault := rfl
@[simp] theorem State.pokeByte_dc : (s.pokeByte a x).dc = s.dc := rfl
@[simp] theorem State.pokeByte_params : (s.pokeByte a x).params = s.params := rfl
@[simp] theorem State.pokeByte_rnd : (s.pokeByte a x).rnd = s.rnd := rfl
@[simp] theorem State.pokeByte_draws : (s.pokeByte a x).draws = s.draws := rfl
@[simp] theorem State.pokeByte_reg (j : RegIdx) : (s.pokeByte a x).reg j = s.reg j := rfl
@[simp] theorem State.pokeByte_halted : (s.pokeByte a x).halted = s.halted := rfl

end

/-! ### `State.afterFetch` -/

section
variable (s : State)

@[simp] theorem State.afterFetch_v : s.afterFetch.v = s.v := rfl
@[simp] theorem State.afterFetch_i : s.afterFetch.i = s.i := rfl
@[simp] theorem State.afterFetch_pc : s.afterFetch.pc = s.pc + 2 := rfl
@[simp] theorem State.afterFetch_stack : s.afterFetch.stack = s.stack := rfl
@[simp] theorem State.afterFetch_dt : s.afterFetch.dt = s.dt := rfl
@[simp] theorem State.afterFetch_st : s.afterFetch.st = s.st := rfl
@[simp] theorem State.afterFetch_mem : s.afterFetch.mem = s.mem := rfl
@[simp] theorem State.afterFetch_display : s.afterFetch.display = s.display := rfl
@[simp] theorem State.afterFetch_keys : s.afterFetch.keys = s.keys := rfl
@[simp] theorem State.afterFetch_cfg : s.afterFetch.cfg = s.cfg := rfl
@[simp] theorem State.afterFetch_fault : s.afterFetch.fault = s.fault := rfl
@[simp] theorem State.afterFetch_dc : s.afterFetch.dc = false := rfl
@[simp] theorem State.afterFetch_params : s.afterFetch.params = s.params := rfl
@[simp] theorem State.afterFetch_rnd : s.afterFetch.rnd = s.rnd := rfl
@[simp] theorem State.afterFetch_draws : s.afterFetch.draws = s.draws := rfl
@[simp] theorem State.afterFetch_reg (j : RegIdx) : s.afterFetch.reg j = s.reg j := rfl
@[simp] theorem State.afterFetch_readByte (j : Nat) : s.afterFetch.readByte j = s.readByte j := rfl
@[simp] theorem State.afterFetch_halted : s.afterFetch.halted = s.halted := rfl

end

/-! ### `State.haltedCycle` -/

section
variable (s : State)

@[simp] theorem State.haltedCycle_v : s.haltedCycle.v = s.v := rfl
@[simp] theorem State.haltedCycle_i : s.haltedCycle.i = s.i := rfl
@[simp] theorem State.haltedCycle_pc : s.haltedCycle.pc = s.pc := rfl
@[simp] theorem State.haltedCycle_stack : s.haltedCycle.stack = s.stack := rfl
@[simp] theorem State.haltedCycle_dt : s.haltedCycle.dt = s.dt := rfl
@[simp] theorem State.haltedCycle_st : s.haltedCycle.st = s.st := rfl
@[simp] theorem State.haltedCycle_mem : s.haltedCycle.mem = s.mem := rfl
@[simp] theorem State.haltedCycle_display : s.haltedCycle.display = s.display := rfl
@[simp] theorem State.haltedCycle_keys : s.haltedCycle.keys = s.keys := rfl
@[simp] theorem State.haltedCycle_cfg : s.haltedCycle.cfg = s.cfg := rfl
@[simp] theorem State.haltedCycle_fault : s.haltedCycle.fault = s.fault := rfl
@[simp] theorem State.haltedCycle_dc : s.haltedCycle.dc = false := rfl
@[simp] theorem State.haltedCycle_params : s.haltedCycle.params = s.params := rfl
@[simp] theorem State.haltedCycle_rnd : s.haltedCycle.rnd = s.rnd := rfl
@[simp] theorem State.haltedCycle_draws : s.haltedCycle.draws = s.draws := rfl
@[simp] theorem State.haltedCycle_reg (j : RegIdx) : s.haltedCycle.reg j = s.reg j := rfl
@[simp] theorem State.haltedCycle_readByte (j : Nat) : s.haltedCycle.readByte j = s.readByte j := rfl
@[simp] theorem State.haltedCycle_halted : s.haltedCycle.halted = s.halted := rfl

end

/-! ### `State.tick` -/

section
variable (s : State)

@[simp] theorem State.tick_v : s.tick.v = s.v := rfl
@[simp] theorem State.tick_i : s.tick.i = s.i := rfl
@[simp] theorem State.tick_pc : s.tick.pc = s.pc := rfl
@[simp] theorem State.tick_stack : s.tick.stack = s.stack := rfl
@[simp] theorem State.tick_dt : s.tick.dt = tickTimer s.dt := rfl
@[simp] theorem State.tick_st : s.tick.st = tickTimer s.st := rfl
@[simp] theorem State.tick_mem : s.tick.mem = s.mem := rfl
@[simp] theorem State.tick_display : s.tick.display = s.display := rfl
@[simp] theorem State.tick_keys : s.tick.keys = s.keys := rfl
@[simp] theorem State.tick_cfg : s.tick.cfg = s.cfg := rfl
@[simp] theorem State.tick_fault : s.tick.fault = s.fault := rfl
@[simp] theorem State.tick_dc : s.tick.dc = s.dc := rfl
@[simp] theorem State.tick_params : s.tick.params = s.params := rfl
@[simp] theorem State.tick_rnd : s.tick.rnd = s.rnd := rfl
@[simp] theorem State.tick_draws : s.tick.draws = s.draws := rfl
@[simp] theorem State.tick_reg (j : RegIdx) : s.tick.reg j = s.reg j := rfl
@[simp] theorem State.tick_readByte (j : Nat) : s.tick.readByte j = s.readByte j := rfl
@[simp] theorem State.tick_halted : s.tick.halted = s.halted := rfl

end

end Sys2Proof.Machine
end

