-- ==== Sys2Proof/Laws/Ops.lean ====
section
/-! SUPPORT. For each shared operation, what it does and what it leaves alone; later proofs cite these. -/

namespace Sys2Proof.Machine

/-! ### What `State.skipIf` leaves alone -/

section
variable (s : State) (c : Bool)

@[simp] theorem State.skipIf_v : (s.skipIf c).v = s.v := by unfold State.skipIf; split <;> rfl
@[simp] theorem State.skipIf_i : (s.skipIf c).i = s.i := by unfold State.skipIf; split <;> rfl
@[simp] theorem State.skipIf_stack : (s.skipIf c).stack = s.stack := by unfold State.skipIf; split <;> rfl
@[simp] theorem State.skipIf_dt : (s.skipIf c).dt = s.dt := by unfold State.skipIf; split <;> rfl
@[simp] theorem State.skipIf_st : (s.skipIf c).st = s.st := by unfold State.skipIf; split <;> rfl
@[simp] theorem State.skipIf_mem : (s.skipIf c).mem = s.mem := by unfold State.skipIf; split <;> rfl
@[simp] theorem State.skipIf_display : (s.skipIf c).display = s.display := by unfold State.skipIf; split <;> rfl
@[simp] theorem State.skipIf_keys : (s.skipIf c).keys = s.keys := by unfold State.skipIf; split <;> rfl
@[simp] theorem State.skipIf_cfg : (s.skipIf c).cfg = s.cfg := by unfold State.skipIf; split <;> rfl
@[simp] theorem State.skipIf_fault : (s.skipIf c).fault = s.fault := by unfold State.skipIf; split <;> rfl
@[simp] theorem State.skipIf_dc : (s.skipIf c).dc = s.dc := by unfold State.skipIf; split <;> rfl
@[simp] theorem State.skipIf_params : (s.skipIf c).params = s.params := by unfold State.skipIf; split <;> rfl
@[simp] theorem State.skipIf_rnd : (s.skipIf c).rnd = s.rnd := by unfold State.skipIf; split <;> rfl
@[simp] theorem State.skipIf_draws : (s.skipIf c).draws = s.draws := by unfold State.skipIf; split <;> rfl
@[simp] theorem State.skipIf_reg (j : RegIdx) : (s.skipIf c).reg j = s.reg j := by unfold State.skipIf; split <;> rfl
@[simp] theorem State.skipIf_readByte (j : Nat) : (s.skipIf c).readByte j = s.readByte j := by unfold State.skipIf; split <;> rfl
@[simp] theorem State.skipIf_halted : (s.skipIf c).halted = s.halted := by unfold State.skipIf; split <;> rfl

end

/-! ### What `State.setRegAndFlag` leaves alone -/

section
variable (s : State) (k : RegIdx) (x : Byte) (c : Bool)

@[simp] theorem State.setRegAndFlag_i : (s.setRegAndFlag k x c).i = s.i := rfl
@[simp] theorem State.setRegAndFlag_pc : (s.setRegAndFlag k x c).pc = s.pc := rfl
@[simp] theorem State.setRegAndFlag_stack : (s.setRegAndFlag k x c).stack = s.stack := rfl
@[simp] theorem State.setRegAndFlag_dt : (s.setRegAndFlag k x c).dt = s.dt := rfl
@[simp] theorem State.setRegAndFlag_st : (s.setRegAndFlag k x c).st = s.st := rfl
@[simp] theorem State.setRegAndFlag_mem : (s.setRegAndFlag k x c).mem = s.mem := rfl
@[simp] theorem State.setRegAndFlag_display : (s.setRegAndFlag k x c).display = s.display := rfl
@[simp] theorem State.setRegAndFlag_keys : (s.setRegAndFlag k x c).keys = s.keys := rfl
@[simp] theorem State.setRegAndFlag_cfg : (s.setRegAndFlag k x c).cfg = s.cfg := rfl
@[simp] theorem State.setRegAndFlag_fault : (s.setRegAndFlag k x c).fault = s.fault := rfl
@[simp] theorem State.setRegAndFlag_dc : (s.setRegAndFlag k x c).dc = s.dc := rfl
@[simp] theorem State.setRegAndFlag_params : (s.setRegAndFlag k x c).params = s.params := rfl
@[simp] theorem State.setRegAndFlag_rnd : (s.setRegAndFlag k x c).rnd = s.rnd := rfl
@[simp] theorem State.setRegAndFlag_draws : (s.setRegAndFlag k x c).draws = s.draws := rfl
@[simp] theorem State.setRegAndFlag_readByte (j : Nat) : (s.setRegAndFlag k x c).readByte j = s.readByte j := rfl
@[simp] theorem State.setRegAndFlag_halted : (s.setRegAndFlag k x c).halted = s.halted := rfl

end

/-! ### What `State.raiseFlagIf` leaves alone -/

section
variable (s : State) (c : Bool)

@[simp] theorem State.raiseFlagIf_i : (s.raiseFlagIf c).i = s.i := by unfold State.raiseFlagIf; split <;> rfl
@[simp] theorem State.raiseFlagIf_pc : (s.raiseFlagIf c).pc = s.pc := by unfold State.raiseFlagIf; split <;> rfl
@[simp] theorem State.raiseFlagIf_stack : (s.raiseFlagIf c).stack = s.stack := by unfold State.raiseFlagIf; split <;> rfl
@[simp] theorem State.raiseFlagIf_dt : (s.raiseFlagIf c).dt = s.dt := by unfold State.raiseFlagIf; split <;> rfl
@[simp] theorem State.raiseFlagIf_st : (s.raiseFlagIf c).st = s.st := by unfold State.raiseFlagIf; split <;> rfl
@[simp] theorem State.raiseFlagIf_mem : (s.raiseFlagIf c).mem = s.mem := by unfold State.raiseFlagIf; split <;> rfl
@[simp] theorem State.raiseFlagIf_display : (s.raiseFlagIf c).display = s.display := by unfold State.raiseFlagIf; split <;> rfl
@[simp] theorem State.raiseFlagIf_keys : (s.raiseFlagIf c).keys = s.keys := by unfold State.raiseFlagIf; split <;> rfl
@[simp] theorem State.raiseFlagIf_cfg : (s.raiseFlagIf c).cfg = s.cfg := by unfold State.raiseFlagIf; split <;> rfl
@[simp] theorem State.raiseFlagIf_fault : (s.raiseFlagIf c).fault = s.fault := by unfold State.raiseFlagIf; split <;> rfl
@[simp] theorem State.raiseFlagIf_dc : (s.raiseFlagIf c).dc = s.dc := by unfold State.raiseFlagIf; split <;> rfl
@[simp] theorem State.raiseFlagIf_params : (s.raiseFlagIf c).params = s.params := by unfold State.raiseFlagIf; split <;> rfl
@[simp] theorem State.raiseFlagIf_rnd : (s.raiseFlagIf c).rnd = s.rnd := by unfold State.raiseFlagIf; split <;> rfl
@[simp] theorem State.raiseFlagIf_draws : (s.raiseFlagIf c).draws = s.draws := by unfold State.raiseFlagIf; split <;> rfl
@[simp] theorem State.raiseFlagIf_readByte (j : Nat) : (s.raiseFlagIf c).readByte j = s.readByte j := by unfold State.raiseFlagIf; split <;> rfl
@[simp] theorem State.raiseFlagIf_halted : (s.raiseFlagIf c).halted = s.halted := by unfold State.raiseFlagIf; split <;> rfl

end

/-! ### What `State.writeByte` leaves alone -/

section
variable (s : State) (a : Nat) (x : Byte)

@[simp] theorem State.writeByte_v : (s.writeByte a x).v = s.v := by unfold State.writeByte; split <;> rfl
@[simp] theorem State.writeByte_i : (s.writeByte a x).i = s.i := by unfold State.writeByte; split <;> rfl
@[simp] theorem State.writeByte_pc : (s.writeByte a x).pc = s.pc := by unfold State.writeByte; split <;> rfl
@[simp] theorem State.writeByte_stack : (s.writeByte a x).stack = s.stack := by unfold State.writeByte; split <;> rfl
@[simp] theorem State.writeByte_dt : (s.writeByte a x).dt = s.dt := by unfold State.writeByte; split <;> rfl
@[simp] theorem State.writeByte_st : (s.writeByte a x).st = s.st := by unfold State.writeByte; split <;> rfl
@[simp] theorem State.writeByte_display : (s.writeByte a x).display = s.display := by unfold State.writeByte; split <;> rfl
@[simp] theorem State.writeByte_keys : (s.writeByte a x).keys = s.keys := by unfold State.writeByte; split <;> rfl
@[simp] theorem State.writeByte_cfg : (s.writeByte a x).cfg = s.cfg := by unfold State.writeByte; split <;> rfl
@[simp] theorem State.writeByte_fault : (s.writeByte a x).fault = s.fault := by unfold State.writeByte; split <;> rfl
@[simp] theorem State.writeByte_dc : (s.writeByte a x).dc = s.dc := by unfold State.writeByte; split <;> rfl
@[simp] theorem State.writeByte_params : (s.writeByte a x).params = s.params := by unfold State.writeByte; split <;> rfl
@[simp] theorem State.writeByte_rnd : (s.writeByte a x).rnd = s.rnd := by unfold State.writeByte; split <;> rfl
@[simp] theorem State.writeByte_draws : (s.writeByte a x).draws = s.draws := by unfold State.writeByte; split <;> rfl
@[simp] theorem State.writeByte_reg (j : RegIdx) : (s.writeByte a x).reg j = s.reg j := by unfold State.writeByte; split <;> rfl
@[simp] theorem State.writeByte_halted : (s.writeByte a x).halted = s.halted := by unfold State.writeByte; split <;> rfl

end

/-! ### What `State.consumeRandom` leaves alone -/

section
variable (s : State)

@[simp] theorem State.consumeRandom_v : s.consumeRandom.v = s.v := by unfold State.consumeRandom; split <;> rfl
@[simp] theorem State.consumeRandom_i : s.consumeRandom.i = s.i := by unfold State.consumeRandom; split <;> rfl
@[simp] theorem State.consumeRandom_pc : s.consumeRandom.pc = s.pc := by unfold State.consumeRandom; split <;> rfl
@[simp] theorem State.consumeRandom_stack : s.consumeRandom.stack = s.stack := by unfold State.consumeRandom; split <;> rfl
@[simp] theorem State.consumeRandom_dt : s.consumeRandom.dt = s.dt := by unfold State.consumeRandom; split <;> rfl
@[simp] theorem State.consumeRandom_st : s.consumeRandom.st = s.st := by unfold State.consumeRandom; split <;> rfl
@[simp] theorem State.consumeRandom_mem : s.consumeRandom.mem = s.mem := by unfold State.consumeRandom; split <;> rfl
@[simp] theorem State.consumeRandom_display : s.consumeRandom.display = s.display := by unfold State.consumeRandom; split <;> rfl
@[simp] theorem State.consumeRandom_keys : s.consumeRandom.keys = s.keys := by unfold State.consumeRandom; split <;> rfl
@[simp] theorem State.consumeRandom_cfg : s.consumeRandom.cfg = s.cfg := by unfold State.consumeRandom; split <;> rfl
@[simp] theorem State.consumeRandom_fault : s.consumeRandom.fault = s.fault := by unfold State.consumeRandom; split <;> rfl
@[simp] theorem State.consumeRandom_dc : s.consumeRandom.dc = s.dc := by unfold State.consumeRandom; split <;> rfl
@[simp] theorem State.consumeRandom_params : s.consumeRandom.params = s.params := by unfold State.consumeRandom; split <;> rfl
@[simp] theorem State.consumeRandom_reg (j : RegIdx) : s.consumeRandom.reg j = s.reg j := by unfold State.consumeRandom; split <;> rfl
@[simp] theorem State.consumeRandom_readByte (j : Nat) : s.consumeRandom.readByte j = s.readByte j := by unfold State.consumeRandom; split <;> rfl
@[simp] theorem State.consumeRandom_halted : s.consumeRandom.halted = s.halted := by unfold State.consumeRandom; split <;> rfl

end

/-! ### What `State.storeRegs` leaves alone -/

section
variable (s : State) (base : Nat) (ks : List RegIdx)

@[simp] theorem State.storeRegs_v : (s.storeRegs base ks).v = s.v := by
  induction ks generalizing s with
  | nil => rfl
  | cons k ks ih => simp [State.storeRegs, ih]

@[simp] theorem State.storeRegs_i : (s.storeRegs base ks).i = s.i := by
  induction ks generalizing s with
  | nil => rfl
  | cons k ks ih => simp [State.storeRegs, ih]

@[simp] theorem State.storeRegs_pc : (s.storeRegs base ks).pc = s.pc := by
  induction ks generalizing s with
  | nil => rfl
  | cons k ks ih => simp [State.storeRegs, ih]

@[simp] theorem State.storeRegs_stack : (s.storeRegs base ks).stack = s.stack := by
  induction ks generalizing s with
  | nil => rfl
  | cons k ks ih => simp [State.storeRegs, ih]

@[simp] theorem State.storeRegs_dt : (s.storeRegs base ks).dt = s.dt := by
  induction ks generalizing s with
  | nil => rfl
  | cons k ks ih => simp [State.storeRegs, ih]

@[simp] theorem State.storeRegs_st : (s.storeRegs base ks).st = s.st := by
  induction ks generalizing s with
  | nil => rfl
  | cons k ks ih => simp [State.storeRegs, ih]

@[simp] theorem State.storeRegs_display : (s.storeRegs base ks).display = s.display := by
  induction ks generalizing s with
  | nil => rfl
  | cons k ks ih => simp [State.storeRegs, ih]

@[simp] theorem State.storeRegs_keys : (s.storeRegs base ks).keys = s.keys := by
  induction ks generalizing s with
  | nil => rfl
  | cons k ks ih => simp [State.storeRegs, ih]

@[simp] theorem State.storeRegs_cfg : (s.storeRegs base ks).cfg = s.cfg := by
  induction ks generalizing s with
  | nil => rfl
  | cons k ks ih => simp [State.storeRegs, ih]

@[simp] theorem State.storeRegs_fault : (s.storeRegs base ks).fault = s.fault := by
  induction ks generalizing s with
  | nil => rfl
  | cons k ks ih => simp [State.storeRegs, ih]

@[simp] theorem State.storeRegs_dc : (s.storeRegs base ks).dc = s.dc := by
  induction ks generalizing s with
  | nil => rfl
  | cons k ks ih => simp [State.storeRegs, ih]

@[simp] theorem State.storeRegs_params : (s.storeRegs base ks).params = s.params := by
  induction ks generalizing s with
  | nil => rfl
  | cons k ks ih => simp [State.storeRegs, ih]

@[simp] theorem State.storeRegs_rnd : (s.storeRegs base ks).rnd = s.rnd := by
  induction ks generalizing s with
  | nil => rfl
  | cons k ks ih => simp [State.storeRegs, ih]

@[simp] theorem State.storeRegs_draws : (s.storeRegs base ks).draws = s.draws := by
  induction ks generalizing s with
  | nil => rfl
  | cons k ks ih => simp [State.storeRegs, ih]

@[simp] theorem State.storeRegs_reg (j : RegIdx) : (s.storeRegs base ks).reg j = s.reg j := by
  induction ks generalizing s with
  | nil => rfl
  | cons k ks ih => simp [State.storeRegs, ih]

@[simp] theorem State.storeRegs_halted : (s.storeRegs base ks).halted = s.halted := by
  induction ks generalizing s with
  | nil => rfl
  | cons k ks ih => simp [State.storeRegs, ih]

end

/-! ### What `State.loadRegs` leaves alone -/

section
variable (s : State) (base : Nat) (ks : List RegIdx)

@[simp] theorem State.loadRegs_i : (s.loadRegs base ks).i = s.i := by
  induction ks generalizing s with
  | nil => rfl
  | cons k ks ih => simp [State.loadRegs, ih]

@[simp] theorem State.loadRegs_pc : (s.loadRegs base ks).pc = s.pc := by
  induction ks generalizing s with
  | nil => rfl
  | cons k ks ih => simp [State.loadRegs, ih]

@[simp] theorem State.loadRegs_stack : (s.loadRegs base ks).stack = s.stack := by
  induction ks generalizing s with
  | nil => rfl
  | cons k ks ih => simp [State.loadRegs, ih]

@[simp] theorem State.loadRegs_dt : (s.loadRegs base ks).dt = s.dt := by
  induction ks generalizing s with
  | nil => rfl
  | cons k ks ih => simp [State.loadRegs, ih]

@[simp] theorem State.loadRegs_st : (s.loadRegs base ks).st = s.st := by
  induction ks generalizing s with
  | nil => rfl
  | cons k ks ih => simp [State.loadRegs, ih]

@[simp] theorem State.loadRegs_mem : (s.loadRegs base ks).mem = s.mem := by
  induction ks generalizing s with
  | nil => rfl
  | cons k ks ih => simp [State.loadRegs, ih]

@[simp] theorem State.loadRegs_display : (s.loadRegs base ks).display = s.display := by
  induction ks generalizing s with
  | nil => rfl
  | cons k ks ih => simp [State.loadRegs, ih]

@[simp] theorem State.loadRegs_keys : (s.loadRegs base ks).keys = s.keys := by
  induction ks generalizing s with
  | nil => rfl
  | cons k ks ih => simp [State.loadRegs, ih]

@[simp] theorem State.loadRegs_cfg : (s.loadRegs base ks).cfg = s.cfg := by
  induction ks generalizing s with
  | nil => rfl
  | cons k ks ih => simp [State.loadRegs, ih]

@[simp] theorem State.loadRegs_fault : (s.loadRegs base ks).fault = s.fault := by
  induction ks generalizing s with
  | nil => rfl
  | cons k ks ih => simp [State.loadRegs, ih]

@[simp] theorem State.loadRegs_dc : (s.loadRegs base ks).dc = s.dc := by
  induction ks generalizing s with
  | nil => rfl
  | cons k ks ih => simp [State.loadRegs, ih]

@[simp] theorem State.loadRegs_params : (s.loadRegs base ks).params = s.params := by
  induction ks generalizing s with
  | nil => rfl
  | cons k ks ih => simp [State.loadRegs, ih]

@[simp] theorem State.loadRegs_rnd : (s.loadRegs base ks).rnd = s.rnd := by
  induction ks generalizing s with
  | nil => rfl
  | cons k ks ih => simp [State.loadRegs, ih]

@[simp] theorem State.loadRegs_draws : (s.loadRegs base ks).draws = s.draws := by
  induction ks generalizing s with
  | nil => rfl
  | cons k ks ih => simp [State.loadRegs, ih]

@[simp] theorem State.loadRegs_readByte (j : Nat) : (s.loadRegs base ks).readByte j = s.readByte j := by
  induction ks generalizing s with
  | nil => rfl
  | cons k ks ih => simp [State.loadRegs, ih]

@[simp] theorem State.loadRegs_halted : (s.loadRegs base ks).halted = s.halted := by
  induction ks generalizing s with
  | nil => rfl
  | cons k ks ih => simp [State.loadRegs, ih]

end

/-! ### Registers -/

/-- A register after a register write: the one written holds the value, every other one is unchanged. -/
theorem State.setReg_reg (s : State) (k j : RegIdx) (x : Byte) :
    (s.setReg k x).reg j = if j = k then x else s.reg j := by
  simp only [State.reg, State.setReg]
  rw [Vector.getElem_set]
  by_cases h : j = k
  · simp [h]
  · have : k.val ≠ j.val := fun e => h (Fin.ext e.symm)
    simp [h, this]

@[simp] theorem State.setReg_reg_same (s : State) (k : RegIdx) (x : Byte) : (s.setReg k x).reg k = x := by
  simp [State.setReg_reg]

theorem State.setReg_reg_other {j k : RegIdx} (h : j ≠ k) (s : State) (x : Byte) :
    (s.setReg k x).reg j = s.reg j := by
  simp [State.setReg_reg, h]

/-- VX and VF after an instruction that writes both: VF ends as the flag, whatever X is (R131). -/
theorem State.setRegAndFlag_reg (s : State) (k j : RegIdx) (x : Byte) (c : Bool) :
    (s.setRegAndFlag k x c).reg j = if j = VF then flagByte c else if j = k then x else s.reg j := by
  simp [State.setRegAndFlag, State.setReg_reg]

/-- Registers after the conditional flag of add-index (R172). -/
theorem State.raiseFlagIf_reg (s : State) (c : Bool) (j : RegIdx) :
    (s.raiseFlagIf c).reg j = if c = true ∧ j = VF then 1 else s.reg j := by
  unfold State.raiseFlagIf
  split <;> simp_all [State.setReg_reg]

/-- PC after a skip instruction (R26). -/
theorem State.skipIf_pc (s : State) (c : Bool) : (s.skipIf c).pc = if c = true then s.pc + 2 else s.pc := by
  unfold State.skipIf
  split <;> rfl

/-! ### Memory -/

/-- The font region (R57). -/
theorem inFontRegion_iff {a : Nat} : inFontRegion a = true ↔ 0x050 ≤ a ∧ a ≤ 0x09F := by
  simp [inFontRegion]

/-- When a data write is discarded (R53). -/
theorem State.writeDiscarded_iff {s : State} {a : Nat} :
    s.writeDiscarded a = true ↔ s.params.fontWriteProtect = true ∧ 0x050 ≤ portAddr a ∧ portAddr a ≤ 0x09F := by
  simp [State.writeDiscarded, inFontRegion_iff]

/-- A read after a direct write, at any two addresses. -/
theorem State.pokeByte_readByte {s : State} (hm : s.mem.wf = true) (a b : Nat) (x : Byte) :
    (s.pokeByte a x).readByte b = if portAddr b = portAddr a then x else s.readByte b :=
  Memory.cell_setCell hm (portAddr a) (portAddr b) x

/-- A read after MemWrite (R52, R53). -/
theorem State.writeByte_readByte {s : State} (hm : s.mem.wf = true) (a b : Nat) (x : Byte) :
    (s.writeByte a x).readByte b =
      if portAddr b = portAddr a ∧ s.writeDiscarded a = false then x else s.readByte b := by
  unfold State.writeByte
  split
  · simp_all
  · rw [State.pokeByte_readByte hm]; simp_all

/-- MemWrite leaves every other byte as it was. -/
theorem State.writeByte_readByte_other {a b : Nat} (h : portAddr b ≠ portAddr a) (s : State) (x : Byte) :
    (s.writeByte a x).readByte b = s.readByte b := by
  unfold State.writeByte
  split
  · rfl
  · exact Memory.cell_setCell_other s.mem h x

theorem State.pokeByte_wf {s : State} (hm : s.mem.wf = true) (a : Nat) (x : Byte) : (s.pokeByte a x).mem.wf = true :=
  Memory.wf_setCell hm (portAddr_lt a) x

/-- MemWrite keeps the canonical form of memory. -/
theorem State.writeByte_wf {s : State} (hm : s.mem.wf = true) (a : Nat) (x : Byte) :
    (s.writeByte a x).mem.wf = true := by
  unfold State.writeByte
  split
  · exact hm
  · exact State.pokeByte_wf hm a x

/-- Storing a block of registers keeps the canonical form of memory. -/
theorem State.storeRegs_wf {s : State} (hm : s.mem.wf = true) (base : Nat) (ks : List RegIdx) :
    (s.storeRegs base ks).mem.wf = true := by
  induction ks generalizing s with
  | nil => exact hm
  | cons k ks ih => exact ih (State.writeByte_wf hm _ _)

@[simp] theorem State.writeByte_writeDiscarded (s : State) (a b : Nat) (x : Byte) :
    (s.writeByte a x).writeDiscarded b = s.writeDiscarded b := by
  simp [State.writeDiscarded]

/-- A register after a block is loaded: those of the block hold their bytes, the others are unchanged (R176). -/
theorem State.loadRegs_reg (s : State) (base : Nat) (ks : List RegIdx) (j : RegIdx) :
    (s.loadRegs base ks).reg j = if j ∈ ks then s.readByte (base + j.val) else s.reg j := by
  induction ks generalizing s with
  | nil => simp [State.loadRegs]
  | cons k ks ih =>
    simp only [State.loadRegs, ih, State.setReg_reg, State.setReg_readByte, List.mem_cons]
    by_cases h : j ∈ ks <;> by_cases h' : j = k <;> simp_all

/-- A byte outside the block that is stored reads as before (R175). -/
theorem State.storeRegs_readByte_other (s : State) (base : Nat) (ks : List RegIdx) (b : Nat)
    (h : ∀ k ∈ ks, portAddr b ≠ portAddr (base + k.val)) : (s.storeRegs base ks).readByte b = s.readByte b := by
  induction ks generalizing s with
  | nil => rfl
  | cons k ks ih =>
    simp only [State.storeRegs]
    rw [ih _ (fun j hj => h j (by simp [hj])), State.writeByte_readByte_other (h k (by simp))]

/-- A byte inside the block that is stored reads as its register, where the write is not discarded (R53, R175). -/
theorem State.storeRegs_readByte_inside {s : State} (hm : s.mem.wf = true) (base : Nat) (ks : List RegIdx)
    (hk : ks.Nodup) {j : RegIdx} (hj : j ∈ ks) :
    (s.storeRegs base ks).readByte (base + j.val) =
      if s.writeDiscarded (base + j.val) = true then s.readByte (base + j.val) else s.reg j := by
  induction ks generalizing s with
  | nil => simp at hj
  | cons k ks ih =>
    obtain ⟨hk1, hk2⟩ := List.nodup_cons.mp hk
    simp only [State.storeRegs]
    rcases List.mem_cons.mp hj with rfl | hj
    · rw [State.storeRegs_readByte_other, State.writeByte_readByte hm]
      · cases h : s.writeDiscarded (base + j.val) <;> simp
      · intro k hk e
        have hne : k.val ≠ j.val := fun e' => hk1 (Fin.ext e' ▸ hk)
        simp only [portAddr] at e
        omega
    · have hne : j.val ≠ k.val := fun e' => hk1 (Fin.ext e' ▸ hj)
      rw [ih (State.writeByte_wf hm _ _) hk2 hj, State.writeByte_readByte hm]
      have : portAddr (base + j.val) ≠ portAddr (base + k.val) := by simp only [portAddr]; omega
      simp [this]

@[simp] theorem mem_regsUpTo {k x : RegIdx} : k ∈ regsUpTo x ↔ k.val ≤ x.val := by
  simp [regsUpTo]

theorem regsUpTo_nodup (x : RegIdx) : (regsUpTo x).Nodup := (List.nodup_finRange 16).filter _

/-! ### Faults and the cycle -/

/-- Taking a fault always gives a next state; it differs in FAULT and DC alone (R222). -/
theorem raiseFault_eq (kind : FaultKind) (w a : Word) (s : State) :
    raiseFault kind w a s = .next { s with fault := ⟨kind, w, a⟩, dc := false } := rfl

/-- A halted core's cycle (R223). -/
theorem step_of_halted {s : State} (h : s.halted = true) : step s = .next (s.setDc false) := by
  simp [step, h, State.haltedCycle]

/-- A cycle whose word does not decode (R222, R262). -/
theorem step_of_decode_error {s : State} {e : DecodeReject} (h : s.halted = false) (hd : decode s.fetchWord = .error e) :
    step s = raiseFault .decodeError s.fetchWord s.pc s.afterFetch := by
  simp [step, h, hd]

@[simp] theorem State.afterFetch_fetchAddr (s : State) : s.afterFetch.fetchAddr = s.pc := by
  simp [State.fetchAddr]

/-- RESET gives a next state exactly for an image that fits (R253). -/
theorem construct_next_iff {p : Config.Params} {cfg : Cfg} {image : List Byte} {n : Nat} :
    (∃ t, construct p cfg image n = .next t) ↔ imageWf image = true := by
  unfold construct
  split <;> simp_all

end Sys2Proof.Machine
end

