-- ==== Sys2Proof/Laws/Display.lean ====
section
/-! SUPPORT. What drawing does to the display and to the collision, one lemma for each operation: a cell, a sprite bit, a
sprite row, and the rows of a sprite (R193). -/

namespace Sys2Proof.Machine

/-- Reading a cell after writing one. -/
theorem Display.setPixel_pixel (d : Display) (y y' : Fin 32) (x x' : Fin 64) (b : Bool) :
    (d.setPixel y x b).pixel y' x' = if y' = y ∧ x' = x then b else d.pixel y' x' := by
  unfold Display.setPixel Display.pixel
  simp only [Vector.getElem_set, Fin.ext_iff]
  by_cases h : y.val = y'.val
  · simp only [h, if_true, true_and]
    simp only [Vector.getElem_set]
    by_cases h2 : x.val = x'.val <;> simp [h2, eq_comm]
  · simp [h, Ne.symm h]

/-- What a sprite bit does to the display. -/
theorem plot_pixel (y x bit c) (y' : Fin 32) (x' : Fin 64) :
    (plot y x bit c).1.pixel y' x' = (c.1.pixel y' x' != (bit && decide (y' = y ∧ x' = x))) := by
  unfold plot
  cases bit
  · simp
  · by_cases h : y' = y ∧ x' = x
    · obtain ⟨rfl, rfl⟩ := h
      cases hc : c.1.pixel y' x' <;> simp [Display.setPixel_pixel]
    · cases hc : c.1.pixel y x <;> simp [Display.setPixel_pixel, h]

/-- What a sprite bit does to the collision. -/
theorem plot_collision (y x bit c) : (plot y x bit c).2 = (c.2 || (bit && c.1.pixel y x)) := by
  unfold plot; cases bit <;> simp; cases hc : c.1.pixel y x <;> simp

/-- What a sprite row does to the display, from its bit 7 - k on. -/
theorem drawRow_pixel (y : Fin 32) (x0 : Nat) (b : Byte) (n k : Nat) (hk : k + n ≤ 8) (c) (y' : Fin 32) (x' : Fin 64) :
    (drawRow y x0 b (List.range' k n) c).1.pixel y' x' =
      (c.1.pixel y' x' != (decide (y' = y ∧ x0 + k ≤ x'.val ∧ x'.val < x0 + k + n) && b.getLsbD (7 - (x'.val - x0)))) := by
  induction n generalizing k c with
  | zero =>
    have : ¬ (x0 + k ≤ x'.val ∧ x'.val < x0 + k + 0) := by omega
    simp only [List.range'_zero, drawRow, this]; simp
  | succ n ih =>
    simp only [List.range'_succ, drawRow]
    split
    · rename_i h
      rw [ih (k+1) (by omega), plot_pixel]
      by_cases hy : y' = y
      · by_cases hx : x'.val = x0 + k
        · have : x' = ⟨x0 + k, h⟩ := Fin.ext hx
          have e : x'.val - x0 = k := by omega
          subst hy; subst this; simp
        · have : ¬ x' = ⟨x0 + k, h⟩ := fun e => hx (by rw [e])
          simp [this, hy]
          have : (x0 + (k + 1) ≤ x'.val ∧ x'.val < x0 + (k+1) + n) ↔ (x0 + k ≤ x'.val ∧ x'.val < x0 + k + (n+1)) := by omega
          simp only [← Bool.decide_and, this]
      · simp [hy]
    · have := x'.isLt
      have : ¬ (x0 + k ≤ x'.val) := by omega
      simp [this]

/-- What a sprite row does to the collision. -/
theorem drawRow_collision (y : Fin 32) (x0 : Nat) (b : Byte) (n k : Nat) (hk : k + n ≤ 8) (c) :
    (drawRow y x0 b (List.range' k n) c).2 = true ↔
      (c.2 = true ∨ ∃ x' : Fin 64, (x0 + k ≤ x'.val ∧ x'.val < x0 + k + n) ∧ b.getLsbD (7 - (x'.val - x0)) = true ∧ c.1.pixel y x' = true) := by
  induction n generalizing k c with
  | zero =>
    have : ∀ x' : Fin 64, ¬ (x0 + k ≤ x'.val ∧ x'.val < x0 + k + 0) := by intros; omega
    simp only [List.range'_zero, drawRow, this]; simp
  | succ n ih =>
    simp only [List.range'_succ, drawRow]
    split
    · rename_i h
      rw [ih (k+1) (by omega), plot_collision]
      simp only [plot_pixel]
      constructor
      · rintro (h1 | ⟨x', ⟨h1, h2⟩, h3, h4⟩)
        · simp at h1
          rcases h1 with h1 | ⟨h1, h2⟩
          · exact .inl h1
          · exact .inr ⟨⟨x0 + k, h⟩, by simp, by simpa using h1, h2⟩
        · right
          have hne : ¬ x' = ⟨x0 + k, h⟩ := fun e => by rw [e] at h1; simp at h1
          refine ⟨x', by omega, h3, by simpa [hne] using h4⟩
      · rintro (h1 | ⟨x', ⟨h1, h2⟩, h3, h4⟩)
        · left; simp [h1]
        · by_cases hx : x' = ⟨x0 + k, h⟩
          · left; subst hx; simp at h3; simp [h3, h4]
          · right; refine ⟨x', ⟨?_, by omega⟩, h3, by simpa [hx] using h4⟩
            have : x'.val ≠ x0 + k := fun e => hx (Fin.ext e)
            omega
    · constructor
      · exact .inl
      · rintro (h1 | ⟨x', ⟨h1, h2⟩, h3, h4⟩)
        · exact h1
        · have := x'.isLt; omega

/-- What sprite rows do to the display, from row k on. -/
theorem State.drawRows_pixel (s : State) (x0 y0 : Nat) (n k : Nat) (c) (y' : Fin 32) (x' : Fin 64) :
    (s.drawRows x0 y0 (List.range' k n) c).1.pixel y' x' =
      (c.1.pixel y' x' != (decide (y0 + k ≤ y'.val ∧ y'.val < y0 + k + n ∧ x0 ≤ x'.val ∧ x'.val < x0 + 8) && (s.readByte (s.i.toNat + (y'.val - y0))).getLsbD (7 - (x'.val - x0)))) := by
  induction n generalizing k c with
  | zero =>
    have : ¬ (y0 + k ≤ y'.val ∧ y'.val < y0 + k + 0 ∧ x0 ≤ x'.val ∧ x'.val < x0 + 8) := by omega
    simp only [List.range'_zero, State.drawRows, this]; simp
  | succ n ih =>
    simp only [List.range'_succ, State.drawRows]
    split
    · rename_i h
      rw [ih (k+1), List.range_eq_range', drawRow_pixel _ _ _ _ _ (by omega)]
      by_cases hy : y'.val = y0 + k
      · have : y' = ⟨y0 + k, h⟩ := Fin.ext hy
        subst this
        have : ¬ (y0 + (k+1) ≤ y0 + k) := by omega
        simp [this, State.dataAddr]
      · have : ¬ y' = ⟨y0 + k, h⟩ := fun e => hy (by rw [e])
        simp only [this]
        have : (y0 + (k + 1) ≤ y'.val ∧ y'.val < y0 + (k+1) + n ∧ x0 ≤ x'.val ∧ x'.val < x0 + 8) ↔ (y0 + k ≤ y'.val ∧ y'.val < y0 + k + (n+1) ∧ x0 ≤ x'.val ∧ x'.val < x0 + 8) := by omega
        simp [this]
    · have := y'.isLt
      have : ¬ (y0 + k ≤ y'.val) := by omega
      simp [this]

/-- What sprite rows do to the collision. -/
theorem State.drawRows_collision (s : State) (x0 y0 : Nat) (n k : Nat) (c) :
    (s.drawRows x0 y0 (List.range' k n) c).2 = true ↔
      (c.2 = true ∨ ∃ (y' : Fin 32) (x' : Fin 64), (y0 + k ≤ y'.val ∧ y'.val < y0 + k + n ∧ x0 ≤ x'.val ∧ x'.val < x0 + 8) ∧ (s.readByte (s.i.toNat + (y'.val - y0))).getLsbD (7 - (x'.val - x0)) = true ∧ c.1.pixel y' x' = true) := by
  induction n generalizing k c with
  | zero =>
    have : ∀ (y' : Fin 32) (x' : Fin 64), ¬ (y0 + k ≤ y'.val ∧ y'.val < y0 + k + 0 ∧ x0 ≤ x'.val ∧ x'.val < x0 + 8) := by intros; omega
    simp only [List.range'_zero, State.drawRows, this]; simp
  | succ n ih =>
    simp only [List.range'_succ, State.drawRows]
    split
    · rename_i h
      rw [ih (k+1), List.range_eq_range', drawRow_collision _ _ _ _ _ (by omega)]
      simp only [drawRow_pixel _ _ _ 8 0 (by omega)]
      constructor
      · rintro ((h1 | ⟨x', h1, h2, h3⟩) | ⟨y', x', h1, h3, h4⟩)
        · exact .inl h1
        · exact .inr ⟨⟨y0 + k, h⟩, x', by simp only []; omega, by simpa [State.dataAddr] using h2, h3⟩
        · right
          have hne : ¬ y' = ⟨y0 + k, h⟩ := fun e => by rw [e] at h1; simp at h1
          refine ⟨y', x', by omega, h3, by simpa [hne] using h4⟩
      · rintro (h1 | ⟨y', x', h1, h3, h4⟩)
        · left; left; exact h1
        · by_cases hy : y' = ⟨y0 + k, h⟩
          · left; right; subst hy; simp at h3; exact ⟨x', by omega, by simpa [State.dataAddr] using h3, h4⟩
          · right
            have : y'.val ≠ y0 + k := fun e => hy (Fin.ext e)
            refine ⟨y', x', by omega, h3, by simpa [hy] using h4⟩
    · constructor
      · exact .inl
      · rintro (h1 | ⟨y', x', h1, h3, h4⟩)
        · exact h1
        · have := y'.isLt; omega

/-- Displays with the same cells are equal. -/
theorem Display.ext_pixel {d e : Display} (h : ∀ r c, d.pixel r c = e.pixel r c) : d = e :=
  Vector.ext fun i hi => Vector.ext fun j hj => h ⟨i, hi⟩ ⟨j, hj⟩

end Sys2Proof.Machine
end

