-- ==== Sys2Proof/Laws/PerInstr.lean ====
section
/-! SUPPORT. One lemma for each instruction: its encoding carries the fixed bits of its row of the opcode table
(spec/30_encoding.md R82). -/

namespace Sys2Proof.Laws.EncodeMatchesRow

/-- The word of an instruction matches the instruction's own row: `w & mask == match` (R82). -/
def Statement (i : Instr) : Prop := i.mnemonic.rowMatches (encode i) = true

theorem matches_op {w m : Word} {op : BitVec 4} (h : opField w = op) (hm : BitVec.ofNat 16 (op.toNat * 4096) = m) :
    (w &&& 0xF000 == m) = true := by
  rw [and_F000, h, hm]; exact beq_self_eq_true m

theorem matches_op_nibble {w m : Word} {op n : BitVec 4} (h : opField w = op) (hn : nField w = n)
    (hm : BitVec.ofNat 16 (op.toNat * 4096 + n.toNat) = m) : (w &&& 0xF00F == m) = true := by
  rw [and_F00F, h, hn, hm]; exact beq_self_eq_true m

theorem matches_op_byte {w m : Word} {op : BitVec 4} {nn : Byte} (h : opField w = op) (hn : nnField w = nn)
    (hm : BitVec.ofNat 16 (op.toNat * 4096 + nn.toNat) = m) : (w &&& 0xF0FF == m) = true := by
  rw [and_F0FF, h, hn, hm]; exact beq_self_eq_true m

theorem clear : Statement .clear := rfl

theorem ret : Statement .ret := rfl

theorem jump (nnn : Addr12) : Statement (.jump nnn) := matches_op (opField_layoutNNN _ _) rfl

theorem call (nnn : Addr12) : Statement (.call nnn) := matches_op (opField_layoutNNN _ _) rfl

theorem skipEqImm (x : RegIdx) (nn : Byte) : Statement (.skipEqImm x nn) := matches_op (opField_layoutXNN _ _ _) rfl

theorem skipNeqImm (x : RegIdx) (nn : Byte) : Statement (.skipNeqImm x nn) := matches_op (opField_layoutXNN _ _ _) rfl

theorem skipEq (x y : RegIdx) : Statement (.skipEq x y) := matches_op (opField_layoutXYN _ _ _ _) rfl

theorem setImm (x : RegIdx) (nn : Byte) : Statement (.setImm x nn) := matches_op (opField_layoutXNN _ _ _) rfl

theorem addImm (x : RegIdx) (nn : Byte) : Statement (.addImm x nn) := matches_op (opField_layoutXNN _ _ _) rfl

theorem set (x y : RegIdx) : Statement (.set x y) := matches_op_nibble (opField_layoutXYN _ _ _ _) (nField_layoutXYN _ _ _ _) rfl

theorem or (x y : RegIdx) : Statement (.or x y) := matches_op_nibble (opField_layoutXYN _ _ _ _) (nField_layoutXYN _ _ _ _) rfl

theorem and (x y : RegIdx) : Statement (.and x y) := matches_op_nibble (opField_layoutXYN _ _ _ _) (nField_layoutXYN _ _ _ _) rfl

theorem xor (x y : RegIdx) : Statement (.xor x y) := matches_op_nibble (opField_layoutXYN _ _ _ _) (nField_layoutXYN _ _ _ _) rfl

theorem add (x y : RegIdx) : Statement (.add x y) := matches_op_nibble (opField_layoutXYN _ _ _ _) (nField_layoutXYN _ _ _ _) rfl

theorem sub (x y : RegIdx) : Statement (.sub x y) := matches_op_nibble (opField_layoutXYN _ _ _ _) (nField_layoutXYN _ _ _ _) rfl

theorem shiftRight (x y : RegIdx) : Statement (.shiftRight x y) := matches_op_nibble (opField_layoutXYN _ _ _ _) (nField_layoutXYN _ _ _ _) rfl

theorem subYx (x y : RegIdx) : Statement (.subYx x y) := matches_op_nibble (opField_layoutXYN _ _ _ _) (nField_layoutXYN _ _ _ _) rfl

theorem shiftLeft (x y : RegIdx) : Statement (.shiftLeft x y) := matches_op_nibble (opField_layoutXYN _ _ _ _) (nField_layoutXYN _ _ _ _) rfl

theorem skipNeq (x y : RegIdx) : Statement (.skipNeq x y) := matches_op (opField_layoutXYN _ _ _ _) rfl

theorem setIndex (nnn : Addr12) : Statement (.setIndex nnn) := matches_op (opField_layoutNNN _ _) rfl

theorem jumpOffset (nnn : Addr12) : Statement (.jumpOffset nnn) := matches_op (opField_layoutNNN _ _) rfl

theorem random (x : RegIdx) (nn : Byte) : Statement (.random x nn) := matches_op (opField_layoutXNN _ _ _) rfl

theorem draw (x y : RegIdx) (n : RowCount) : Statement (.draw x y n) := matches_op (opField_layoutXYN _ _ _ _) rfl

theorem skipIfKey (x : RegIdx) : Statement (.skipIfKey x) := matches_op_byte (opField_layoutXNN _ _ _) (nnField_layoutXNN _ _ _) rfl

theorem skipIfNotKey (x : RegIdx) : Statement (.skipIfNotKey x) := matches_op_byte (opField_layoutXNN _ _ _) (nnField_layoutXNN _ _ _) rfl

theorem getDelay (x : RegIdx) : Statement (.getDelay x) := matches_op_byte (opField_layoutXNN _ _ _) (nnField_layoutXNN _ _ _) rfl

theorem waitKey (x : RegIdx) : Statement (.waitKey x) := matches_op_byte (opField_layoutXNN _ _ _) (nnField_layoutXNN _ _ _) rfl

theorem setDelay (x : RegIdx) : Statement (.setDelay x) := matches_op_byte (opField_layoutXNN _ _ _) (nnField_layoutXNN _ _ _) rfl

theorem setSound (x : RegIdx) : Statement (.setSound x) := matches_op_byte (opField_layoutXNN _ _ _) (nnField_layoutXNN _ _ _) rfl

theorem addIndex (x : RegIdx) : Statement (.addIndex x) := matches_op_byte (opField_layoutXNN _ _ _) (nnField_layoutXNN _ _ _) rfl

theorem fontChar (x : RegIdx) : Statement (.fontChar x) := matches_op_byte (opField_layoutXNN _ _ _) (nnField_layoutXNN _ _ _) rfl

theorem bcd (x : RegIdx) : Statement (.bcd x) := matches_op_byte (opField_layoutXNN _ _ _) (nnField_layoutXNN _ _ _) rfl

theorem store (x : RegIdx) : Statement (.store x) := matches_op_byte (opField_layoutXNN _ _ _) (nnField_layoutXNN _ _ _) rfl

theorem load (x : RegIdx) : Statement (.load x) := matches_op_byte (opField_layoutXNN _ _ _) (nnField_layoutXNN _ _ _) rfl

end Sys2Proof.Laws.EncodeMatchesRow
end

