-- ==== Sys2Proof/Laws/Step.lean ====
section
/-! SUPPORT. What an instruction can do to the fault record and the stack, said once, and what no instruction does; and
the readings of the operand forms. -/

namespace Sys2Proof.Machine

/-- The value of a low nibble. -/
theorem lowNibble_val (b : Byte) : (lowNibble b).val = b.toNat % 16 := by simp [lowNibble]

/-- There is no first key exactly when no key is down. -/
theorem State.firstKey_eq_none {s : State} : s.firstKey = none ↔ ∀ k : Fin 16, s.keys[k.val] = false := by
  simp [State.firstKey, List.find?_eq_none]

/-- The three ways an instruction can go: the two faults of R220 it may raise, or no fault, with the stack pushed by call,
popped by return, and otherwise unchanged. -/
theorem exec_fault_and_stack {i : Instr} {s t : State} (h : exec i s = .next t) :
    (i = .ret ∧ s.stack = [] ∧ t = { s with fault := ⟨.stackUnderflow, 0x00EE, s.pc - 2⟩, dc := false }) ∨
    (∃ nnn, i = .call nnn ∧ s.params.stackDepth = some s.stack.length ∧
      t = { s with fault := ⟨.stackOverflow, encode (.call nnn), s.pc - 2⟩, dc := false }) ∨
    (t.fault = s.fault ∧
      ((∃ nnn, i = .call nnn ∧ t.stack = s.pc :: s.stack ∧ s.params.stackDepth ≠ some s.stack.length) ∨
        (i = .ret ∧ ∃ top, s.stack = top :: t.stack) ∨
        (i ≠ .ret ∧ (∀ nnn, i ≠ .call nnn) ∧ t.stack = s.stack))) := by
  cases i
  case ret =>
    simp only [exec, execRet] at h
    split at h
    · rename_i hs; cases h; exact .inl ⟨rfl, hs, rfl⟩
    · rename_i top rest hs
      cases h
      exact .inr (.inr ⟨rfl, .inr (.inl ⟨rfl, top, hs.trans (by simp [hs])⟩)⟩)
  case call nnn =>
    simp only [exec, execCall] at h
    split at h
    · rename_i hs; cases h; exact .inr (.inl ⟨nnn, rfl, by simpa [State.stackFull] using hs, rfl⟩)
    · rename_i hs
      cases h
      exact .inr (.inr ⟨rfl, .inl ⟨nnn, rfl, rfl, by simpa [State.stackFull] using hs⟩⟩)
  case waitKey x =>
    simp only [exec, execWaitKey] at h
    split at h <;> cases h <;> exact .inr (.inr ⟨rfl, .inr (.inr ⟨by simp, by simp, rfl⟩)⟩)
  all_goals
    cases h
    exact .inr (.inr ⟨by simp, .inr (.inr ⟨by simp, by simp, by simp⟩)⟩)

/-- No instruction writes the parameters, the keys or CFG, and every instruction keeps the canonical form of memory. -/
theorem exec_keeps {i : Instr} {s t : State} (h : exec i s = .next t) :
    t.params = s.params ∧ t.keys = s.keys ∧ t.cfg = s.cfg ∧ (s.mem.wf = true → t.mem.wf = true) := by
  cases i
  case ret => simp only [exec, execRet] at h; split at h <;> cases h <;> exact ⟨rfl, rfl, rfl, id⟩
  case call => simp only [exec, execCall] at h; split at h <;> cases h <;> exact ⟨rfl, rfl, rfl, id⟩
  case waitKey => simp only [exec, execWaitKey] at h; split at h <;> cases h <;> exact ⟨rfl, rfl, rfl, id⟩
  case bcd =>
    cases h
    exact ⟨by simp, by simp, by simp,
      fun hm => State.writeByte_wf (State.writeByte_wf (State.writeByte_wf hm _ _) _ _) _ _⟩
  case store => cases h; exact ⟨by simp, by simp, by simp, fun hm => State.storeRegs_wf hm _ _⟩
  all_goals cases h; exact ⟨by simp, by simp, by simp, by simp⟩

end Sys2Proof.Machine
end

