-- ==== Sys2Proof/Laws/Runs.lean ====
section
/-! SUPPORT. Runs of host actions: how a run is cut and lengthened, and the induction over its moments. -/

namespace Sys2Proof.Machine

/-- A run of one list of actions after another. -/
theorem hostRun_append (xs ys : List HostAction) (s : State) :
    hostRun (xs ++ ys) s =
      match hostRun xs s with
      | .next t => hostRun ys t
      | .fault r => .fault r
      | .refused r => .refused r := by
  induction xs generalizing s with
  | nil => rfl
  | cons a xs ih =>
    simp only [List.cons_append, hostRun]
    cases hostAct a s <;> simp [ih]

@[simp] theorem runAfter_zero (acts : HostBehaviour) (s : State) : runAfter acts s 0 = .next s := rfl

/-- One moment more, in which the host does nothing. -/
theorem runAfter_succ_none {acts : HostBehaviour} {s t : State} {n : Nat} (h : runAfter acts s n = .next t)
    (ha : acts n = none) : runAfter acts s (n + 1) = .next t := by
  simp only [runAfter] at *
  simp [List.range_succ, h, ha]

/-- One moment more, in which the host acts. -/
theorem runAfter_succ_some {acts : HostBehaviour} {s t : State} {n : Nat} {a : HostAction}
    (h : runAfter acts s n = .next t) (ha : acts n = some a) : runAfter acts s (n + 1) = hostAct a t := by
  simp only [runAfter] at *
  simp only [List.range_succ, List.filterMap_append, List.filterMap_cons, ha, List.filterMap_nil, hostRun_append, h,
    hostRun]
  cases hostAct a t <;> rfl

/-- What holds of the state at one moment, and is kept by each action of the host, holds at every later moment. -/
theorem runAfter_keeps {acts : HostBehaviour} {s : State} (P : State → Prop)
    (keep : ∀ n a t, acts n = some a → P t → ∃ u, hostAct a t = .next u ∧ P u) {n : Nat}
    (h : ∃ t, runAfter acts s n = .next t ∧ P t) : ∀ m, n ≤ m → ∃ t, runAfter acts s m = .next t ∧ P t := by
  intro m hm
  induction m, hm using Nat.le_induction with
  | base => exact h
  | succ m _ ih =>
    obtain ⟨t, ht, hp⟩ := ih
    cases ha : acts m with
    | none => exact ⟨t, runAfter_succ_none ht ha, hp⟩
    | some a =>
      obtain ⟨u, hu, hq⟩ := keep m a t ha hp
      exact ⟨u, (runAfter_succ_some ht ha).trans hu, hq⟩

/-- The end (1). -/
theorem State.runEnd_halted {s : State} : s.runEnd = some .halted ↔ s.halted = true := by
  unfold State.runEnd
  split <;> simp_all

/-- The end (2). -/
theorem State.runEnd_selfJump {s : State} : s.runEnd = some .selfJump ↔ s.atSelfJump = true := by
  unfold State.runEnd State.atSelfJump
  split <;> simp_all

end Sys2Proof.Machine
end

