-- ==== Sys2Proof/Tests/Slice0.lean ====
section
/-! SUPPORT. Tests of the model: the checks of WellFormed.lean refuse, every constructor decodes from a word written out
from spec/30_encoding.md, one step of each instruction gives what spec/95_test_vectors.md gives, and every
statement with hypotheses has a witness that meets them. Expected values come from the spec, never from the model. -/

namespace Sys2Proof.Tests

open Sys2Proof Sys2Proof.Machine

/-! ## What the checks of WellFormed.lean refuse -/

theorem test_wf_register_16 : operandsWf .xs [.reg 16] = false := by decide
theorem test_wf_second_register_16 : operandsWf .xy [.reg 0, .reg 16] = false := by decide
theorem test_wf_xys_register_16 : operandsWf .xys [.reg 16, .reg 0] = false := by decide
theorem test_wf_byte_256 : operandsWf .xnn [.reg 0, .num 256] = false := by decide
theorem test_wf_address_4096 : operandsWf .nnn [.num 4096] = false := by decide
theorem test_wf_rows_16 : operandsWf .xyn [.reg 0, .reg 0, .num 16] = false := by decide
theorem test_wf_too_many_operands : operandsWf .fixed [.num 0] = false := by decide
theorem test_wf_label_for_a_byte : operandsWf .xnn [.reg 0, .label "x"] = false := by decide
theorem test_wf_byte_directive_256 : AsmLine.wf (.byte 256) = false := by decide
theorem test_wf_word_directive_65536 : AsmLine.wf (.word 65536) = false := by decide
theorem test_wf_instruction_line : AsmLine.wf (.instr .setImm [.num 1, .num 2]) = false := by decide
theorem test_wf_image_of_0xE01_bytes : imageWf (List.replicate 0xE01 0) = false := by
  rw [imageWf, List.length_replicate]; decide
theorem test_wf_image_of_0xE00_bytes : imageWf (List.replicate 0xE00 0) = true := by
  rw [imageWf, List.length_replicate]; decide

/-! ## Decoding, words written out from R71, R72 and R82 -/

/-- Group 0, whole words (R75). -/
theorem test_decode_fixed : decode 0x00E0 = .ok .clear ∧ decode 0x00EE = .ok .ret := by decide

/-- Format NNN: op, then 12 bits of address. -/
theorem test_decode_nnn :
    decode 0x1FED = .ok (.jump 0xFED) ∧ decode 0x2345 = .ok (.call 0x345) ∧
    decode 0xA2F0 = .ok (.setIndex 0x2F0) ∧ decode 0xB801 = .ok (.jumpOffset 0x801) := by decide

/-- Format XNN: op, X, 8 bits. -/
theorem test_decode_xnn :
    decode 0x3A5C = .ok (.skipEqImm 0xA 0x5C) ∧ decode 0x4B81 = .ok (.skipNeqImm 0xB 0x81) ∧
    decode 0x6F42 = .ok (.setImm 0xF 0x42) ∧ decode 0x7102 = .ok (.addImm 0x1 0x02) ∧
    decode 0xC30F = .ok (.random 0x3 0x0F) := by decide

/-- Format XY, whose low nibble is not examined (R79). -/
theorem test_decode_xy :
    decode 0x5AB0 = .ok (.skipEq 0xA 0xB) ∧ decode 0x512F = .ok (.skipEq 0x1 0x2) ∧
    decode 0x9CD0 = .ok (.skipNeq 0xC 0xD) ∧ decode 0x912A = .ok (.skipNeq 0x1 0x2) := by decide

/-- Format XYS: op 8, X, Y, the selector of R76. -/
theorem test_decode_xys :
    decode 0x8AB0 = .ok (.set 0xA 0xB) ∧ decode 0x8AB1 = .ok (.or 0xA 0xB) ∧ decode 0x8AB2 = .ok (.and 0xA 0xB) ∧
    decode 0x8AB3 = .ok (.xor 0xA 0xB) ∧ decode 0x8AB4 = .ok (.add 0xA 0xB) ∧ decode 0x8AB5 = .ok (.sub 0xA 0xB) ∧
    decode 0x8AB6 = .ok (.shiftRight 0xA 0xB) ∧ decode 0x8AB7 = .ok (.subYx 0xA 0xB) ∧
    decode 0x8ABE = .ok (.shiftLeft 0xA 0xB) := by decide

/-- Format XYN. -/
theorem test_decode_xyn : decode 0xD12F = .ok (.draw 0x1 0x2 0xF) := by decide

/-- Format XS: op, X, the selector of R77. -/
theorem test_decode_xs :
    decode 0xE59E = .ok (.skipIfKey 0x5) ∧ decode 0xE5A1 = .ok (.skipIfNotKey 0x5) ∧
    decode 0xF507 = .ok (.getDelay 0x5) ∧ decode 0xF50A = .ok (.waitKey 0x5) ∧ decode 0xF515 = .ok (.setDelay 0x5) ∧
    decode 0xF518 = .ok (.setSound 0x5) ∧ decode 0xF51E = .ok (.addIndex 0x5) ∧ decode 0xF529 = .ok (.fontChar 0x5) ∧
    decode 0xF533 = .ok (.bcd 0x5) ∧ decode 0xF555 = .ok (.store 0x5) ∧ decode 0xF565 = .ok (.load 0x5) := by decide

/-- One word of each format bit by bit, bit 15 first (R71, R72). -/
theorem test_decode_bit_by_bit :
    decode 0b0001_0010_0011_0100 = .ok (.jump 0x234) ∧ decode 0b0111_0001_0000_0010 = .ok (.addImm 1 2) ∧
    decode 0b1000_1010_1011_0111 = .ok (.subYx 10 11) ∧ decode 0b1101_0011_0100_0101 = .ok (.draw 3 4 5) ∧
    decode 0b1111_0110_0001_1110 = .ok (.addIndex 6) := by decide

/-- V1#5 to #11: words that raise DecodeError. -/
theorem test_decode_illegal :
    [0x0000, 0x01E0, 0x0FEE, 0x00E1].map decode = List.replicate 4 (.error .group0) ∧
    [0x8008, 0x8009, 0x800A, 0x800B, 0x800C, 0x800D, 0x800F].map decode = List.replicate 7 (.error .group8) ∧
    [0xE000, 0xE09F, 0xE01E, 0xE0A2].map decode = List.replicate 4 (.error .groupE) ∧
    [0xF000, 0xF008, 0xF016, 0xF056, 0xF066, 0xF075, 0xF0FF].map decode = List.replicate 7 (.error .groupF) := by
  decide

/-- The bytes of an instruction lie high byte first, and the rest follows (R54, R70). -/
theorem test_decode_bytes :
    decodeBytes [0x6A, 0xFF, 0x12] = .ok (.setImm 0xA 0xFF, [0x12]) ∧
    decodeBytes [0x6A] = .error .truncated := by decide

/-- The encodings that the programs P1 and P2 give. -/
theorem test_encode_program_words :
    encode (.setImm 0xA 0xFF) = 0x6AFF ∧ encode (.add 0xA 0xB) = 0x8AB4 ∧ encode (.call 0x208) = 0x2208 ∧
    encode .ret = 0x00EE ∧ encode (.draw 0 0 5) = 0xD005 ∧ encode (.load 2) = 0xF265 := by decide

theorem test_decode_table_word :
    decodeTableWord 16 0x8AB4 = some (.add 0xA 0xB) ∧ decodeTableWord 16 0x0123 = none := by decide

/-! ## One step -/

/-- The next state of an outcome. -/
def nextOf : Outcome → Option State
  | .next t => some t
  | _ => none

/-- One step of an instruction word at PC, seen through `f`. -/
def after {α : Type} (w : Nat) (f : State → α) (s : State) : Option α :=
  (nextOf (step (s.withFetchWord 16 w))).map f

/-- Registers given by number, everything else as after reset. -/
def regs (kvs : List (RegIdx × Byte)) : State := kvs.foldl (fun s kv => s.setReg kv.1 kv.2) State.reset

/-- The keys pressed, everything else as after reset. -/
def pressed (ks : List (Fin 16)) : State :=
  { State.reset with keys := ks.foldl (fun k j => k.set j.val true) State.reset.keys }

/-- The lit columns of a row of the display. -/
def lit (s : State) (row : Fin 32) : List Nat :=
  ((List.finRange 64).filter (fun c => s.display.pixel row c)).map Fin.val

/-- V1#1: jump, the word read big-endian. -/
theorem test_jump : after 0x1234 (fun t => (t.pc, t.dc)) State.reset = some (0x0234, false) := by decide

/-- V2#5: the top is the last pushed. -/
theorem test_return :
    after 0x00EE (fun t => (t.stack, t.pc)) { State.reset with pc := 0x300, stack := [0x0404, 0x0202] } =
      some ([0x0202], 0x0404) := by decide

/-- V2#6: StackUnderflow. -/
theorem test_return_underflow :
    after 0x00EE (fun t => (t.fault, t.pc, t.dc)) { State.reset with pc := 0x300 } =
      some (⟨.stackUnderflow, 0x00EE, 0x0300⟩, 0x0302, false) := by decide

/-- V2#3: the return address wraps. -/
theorem test_call :
    after 0x2300 (fun t => (t.stack, t.pc)) { State.reset with pc := 0xFFFE } = some ([0x0000], 0x0300) := by decide

/-- V2#7: StackOverflow at the bound. -/
theorem test_call_overflow :
    after 0x2500 (fun t => (t.fault, t.pc, t.stack))
      { State.reset with pc := 0x400, stack := [0x0302, 0x0202]
                         params := { Config.Params.default with stackDepth := some 2 } } =
      some (⟨.stackOverflow, 0x2500, 0x0400⟩, 0x0402, [0x0302, 0x0202]) := by decide

/-- V2#13: a taken skip wraps PC. -/
theorem test_skip_eq_imm : after 0x3305 State.pc { regs [(3, 5)] with pc := 0xFFFC } = some 0x0000 := by decide

/-- V2#11, V2#12. -/
theorem test_skip_neq_imm :
    after 0x4305 State.pc (regs [(3, 6)]) = some 0x204 ∧ after 0x4305 State.pc (regs [(3, 5)]) = some 0x202 := by decide

/-- V1#12, V2#14. -/
theorem test_skip_eq :
    after 0x512F State.pc (regs [(1, 0x40), (2, 0x40)]) = some 0x204 ∧
    after 0x5120 State.pc (regs [(1, 0x40), (2, 0x41)]) = some 0x202 := by decide

/-- V1#13, V2#15. -/
theorem test_skip_neq :
    after 0x912A State.pc (regs [(1, 0x40), (2, 0x41)]) = some 0x204 ∧
    after 0x9110 State.pc (regs [(1, 0x7F)]) = some 0x202 := by decide

/-- V2#16: the sum passes 0xFFF. -/
theorem test_jump_offset : after 0xBFFF State.pc (regs [(0, 0xFF)]) = some 0x10FE := by decide

/-- E5, V2#17: the register of the top nibble of NNN under CFG.JUMP_VX. -/
theorem test_jump_offset_vx :
    after 0xBF00 State.pc { regs [(0, 0x10), (0xF, 3)] with cfg := ⟨false, true, false⟩ } = some 0x0F03 := by decide

/-- V3#1. -/
theorem test_set_imm : after 0x6A42 (fun t => (t.reg 0xA, t.pc)) State.reset = some (0x42, 0x202) := by decide

/-- V3#3: no carry flag. -/
theorem test_add_imm : after 0x7102 (fun t => (t.reg 1, t.reg VF)) (regs [(1, 0xFF)]) = some (0x01, 0x00) := by decide

/-- V3#5. -/
theorem test_set : after 0x8120 (fun t => (t.reg 1, t.reg 2)) (regs [(2, 0x33)]) = some (0x33, 0x33) := by decide

/-- V3#6: VF is not reset. -/
theorem test_or :
    after 0x8121 (fun t => (t.reg 1, t.reg VF)) (regs [(1, 0xF0), (2, 0x0F), (0xF, 5)]) = some (0xFF, 5) := by decide

/-- V3#7. -/
theorem test_and : after 0x8122 (fun t => t.reg 1) (regs [(1, 0xF0), (2, 0x3C)]) = some 0x30 := by decide

/-- V3#8. -/
theorem test_xor : after 0x8123 (fun t => t.reg 1) (regs [(1, 0xF0), (2, 0x3C)]) = some 0xCC := by decide

/-- E1. -/
theorem test_add :
    after 0x8124 (fun t => (t.reg 1, t.reg VF)) (regs [(1, 0xC8), (2, 0x64)]) = some (0x2C, 1) ∧
    after 0x8124 (fun t => (t.reg 1, t.reg VF)) (regs [(1, 0x80), (2, 0x7F), (0xF, 9)]) = some (0xFF, 0) := by decide

/-- V3#12, V3#13: the flag is written last, and VF is read before it. -/
theorem test_add_with_vf :
    after 0x8F14 (fun t => t.reg VF) (regs [(0xF, 0x90), (1, 0x80)]) = some 1 ∧
    after 0x81F4 (fun t => (t.reg 1, t.reg VF)) (regs [(1, 1), (0xF, 0xFF)]) = some (0, 1) := by decide

/-- E2: greater, equal, less. -/
theorem test_sub :
    after 0x8125 (fun t => (t.reg 1, t.reg VF)) (regs [(1, 0x30), (2, 0x10)]) = some (0x20, 1) ∧
    after 0x8125 (fun t => (t.reg 1, t.reg VF)) (regs [(1, 0x10), (2, 0x10), (0xF, 7)]) = some (0x00, 0) ∧
    after 0x8125 (fun t => (t.reg 1, t.reg VF)) (regs [(1, 0x10), (2, 0x30)]) = some (0xE0, 0) := by decide

/-- V3#15, V3#16: X = F. -/
theorem test_sub_into_vf :
    after 0x8F15 (fun t => t.reg VF) (regs [(0xF, 5), (1, 3)]) = some 1 ∧
    after 0x8F15 (fun t => t.reg VF) (regs [(0xF, 3), (1, 5)]) = some 0 := by decide

/-- V3#17, V3#18. -/
theorem test_sub_yx :
    after 0x8127 (fun t => (t.reg 1, t.reg VF)) (regs [(1, 0x10), (2, 0x30)]) = some (0x20, 1) ∧
    after 0x8127 (fun t => (t.reg 1, t.reg VF)) (regs [(1, 0x01), (0xF, 7)]) = some (0xFF, 0) := by decide

/-- E4, V3#20: both configurations, and the lost bit recorded nowhere. -/
theorem test_shift_right :
    after 0x8126 (fun t => (t.reg 1, t.reg VF)) (regs [(1, 5), (2, 0x80), (0xF, 7)]) = some (0x02, 7) ∧
    after 0x8126 (fun t => (t.reg 1, t.reg 2)) { regs [(1, 5), (2, 0x80)] with cfg := ⟨true, false, false⟩ } =
      some (0x40, 0x80) := by decide

/-- E4, V3#21. -/
theorem test_shift_left :
    after 0x812E (fun t => (t.reg 1, t.reg VF)) (regs [(1, 0x81), (2, 3), (0xF, 7)]) = some (0x02, 7) ∧
    after 0x812E (fun t => (t.reg 1, t.reg 2)) { regs [(1, 0x81), (2, 3)] with cfg := ⟨true, false, false⟩ } =
      some (0x06, 3) := by decide

/-- V3#24: rnd = 0xA5. -/
theorem test_random :
    after 0xC30F (fun t => (t.reg 3, t.rnd)) { State.reset with rnd := some 0xA5 } = some (0x05, none) := by decide

/-- V4#1. -/
theorem test_set_index : after 0xA2F0 State.i { State.reset with i := 0xF123 } = some 0x02F0 := by decide

/-- V4#2, V4#4: RANGE12. -/
theorem test_add_index :
    after 0xF21E (fun t => (t.i, t.reg VF)) { regs [(2, 1)] with i := 0x0FFF } = some (0x1000, 1) ∧
    after 0xF21E (fun t => (t.i, t.reg VF)) { regs [(2, 1)] with i := 0x00FF } = some (0x0100, 0) := by decide

/-- V4#5, V4#6: CARRY8; and VF never cleared. -/
theorem test_add_index_carry8 :
    after 0xF21E (fun t => (t.i, t.reg VF))
      { regs [(2, 1)] with i := 0x00FF, params := { Config.Params.default with addIndexFlag := .carry8 } } =
        some (0x0100, 1) ∧
    after 0xF21E (fun t => (t.i, t.reg VF)) { regs [(2, 0x10), (0xF, 7)] with i := 0x0F00 } = some (0x0F10, 7) := by
  decide

/-- V4#10, V4#11. -/
theorem test_font_char :
    after 0xF329 State.i (regs [(3, 0x1A)]) = some 0x0082 ∧ after 0xF329 State.i (regs [(3, 0x0F)]) = some 0x009B := by
  decide

/-- V4#14: the digits of 255, the last one at 0x000. -/
theorem test_bcd :
    after 0xF033 (fun t => (t.readByte 0xFFE, t.readByte 0xFFF, t.readByte 0x000, t.i))
      { regs [(0, 0xFF)] with i := 0x0FFE } = some (2, 5, 5, 0x0FFE) := by decide

/-- V4#16: two of the three writes are discarded. The font bytes there are the last of glyph F but one, and the last. -/
theorem test_bcd_font_protect :
    after 0xF033 (fun t => (t.readByte 0x09E, t.readByte 0x09F, t.readByte 0x0A0))
      { regs [(0, 0x7B)] with i := 0x009E } = some (0x80, 0x80, 3) := by decide

/-- V4#18: three registers, I unchanged without LS_INC. -/
theorem test_store :
    after 0xF255 (fun t => ([0x400, 0x401, 0x402, 0x403].map t.readByte, t.i))
      { regs [(0, 0x11), (1, 0x22), (2, 0x33), (3, 0x44)] with i := 0x0400 } =
        some ([0x11, 0x22, 0x33, 0x00], 0x0400) := by decide

/-- V4#19: a block that wraps, with LS_INC. -/
theorem test_store_wraps :
    after 0xFF55 (fun t => (t.readByte 0xFF8, t.readByte 0xFFF, t.readByte 0x000, t.readByte 0x007, t.i))
      { regs ((List.finRange 16).map (fun k => (k, BitVec.ofNat 8 k.val))) with
        i := 0x0FF8, cfg := ⟨false, false, true⟩ } = some (0x00, 0x07, 0x08, 0x0F, 0x1008) := by decide

/-- V4#22: a load of glyph 0. -/
theorem test_load :
    after 0xF465 (fun t => ([0, 1, 2, 3, 4, 5].map t.reg, t.i)) { State.reset with i := 0x0050 } =
      some ([0xF0, 0x90, 0x90, 0x90, 0xF0, 0x00], 0x0050) := by decide

/-- V4#23: VF is loaded, not a flag; with LS_INC, I advances by 16. -/
theorem test_load_vf :
    after 0xFF65 (fun t => (t.reg VF, t.i))
      { State.reset with mem := [(0x40F, 0x99)], i := 0x0400, cfg := ⟨false, false, true⟩ } =
        some (0x99, 0x0410) := by decide

/-- V5#1. -/
theorem test_clear :
    after 0x00E0 (fun t => (lit t 3, t.dc, t.reg VF))
      { regs [(0xF, 6)] with display := State.reset.display.setPixel 3 9 true } = some ([], true, 6) := by decide

/-- V5#3: clipped at the bottom and at the right. -/
theorem test_draw_clips :
    after 0xD015 (fun t => ([0, 1, 29, 30, 31].map (lit t), t.reg VF, t.dc))
      { regs [(0, 0x3C), (1, 0x1E), (0xF, 9)] with i := 0x0078 } =
        some ([[], [], [], [60, 61, 62, 63], [60, 63]], 0, true) := by decide

/-- V5#6, V5#7: a collision; and VX read before VF is written. -/
theorem test_draw_collision :
    after 0xD011 (fun t => (lit t 0, t.reg VF))
      { State.reset with i := 0x0050, display := State.reset.display.setPixel 0 1 true } = some ([0, 2, 3], 1) ∧
    after 0xDF11 (fun t => (lit t 0, t.reg VF)) { regs [(0xF, 8)] with i := 0x0050 } = some ([8, 9, 10, 11], 0) := by
  decide

/-- V5#9, V5#10. -/
theorem test_skip_if_key :
    after 0xE19E State.pc ((pressed [5]).setReg 1 5) = some 0x204 ∧
    after 0xE19E State.pc ((pressed [4]).setReg 1 5) = some 0x202 := by decide

/-- V5#11, V5#12: the key of the low nibble. -/
theorem test_skip_if_not_key :
    after 0xE1A1 State.pc ((pressed []).setReg 1 5) = some 0x204 ∧
    after 0xE1A1 State.pc ((pressed [5]).setReg 1 0x15) = some 0x202 := by decide

/-- V5#13, V5#16. -/
theorem test_wait_key_rewinds :
    after 0xF30A (fun t => (t.pc, t.reg 3)) (regs [(3, 7)]) = some (0x200, 7) ∧
    after 0xF30A State.pc { State.reset with pc := 0 } = some 0 := by decide

/-- V5#14: the lowest key. -/
theorem test_wait_key : after 0xF30A (fun t => (t.reg 3, t.pc)) (pressed [0xA, 7]) = some (7, 0x202) := by decide

/-- V5#17. -/
theorem test_get_delay : after 0xF107 (fun t => t.reg 1) { State.reset with dt := 0x3C } = some 0x3C := by decide

/-- V5#18. -/
theorem test_set_delay : after 0xF115 (fun t => (t.dt, t.st)) (regs [(1, 0x3C)]) = some (0x3C, 0) := by decide

/-- V5#19. -/
theorem test_set_sound :
    after 0xF118 (fun t => (t.st, t.soundOn, t.dt)) (regs [(1, 5)]) = some (5, true, 0) := by decide

/-! ## The cycle, faults, the host -/

/-- V1#2: the fetch wraps from 0xFFF to 0x000. -/
theorem test_fetch_wraps :
    (nextOf (step { State.reset with pc := 0x0FFF, mem := [(0x000, 0x23), (0xFFF, 0x61)] })).map
      (fun t => (t.reg 1, t.pc)) = some (0x23, 0x1001) := by decide

/-- V1#3: an odd PC is no fault. -/
theorem test_fetch_odd :
    after 0x6007 (fun t => (t.reg 0, t.pc, t.halted)) { State.reset with pc := 0x201 } = some (7, 0x203, false) := by
  decide

/-- V6#4: the reset state with an empty image fetches 0x0000 and halts. -/
theorem test_reset_step :
    (nextOf (step State.reset)).map (fun t => (t.fault, t.pc)) = some (⟨.decodeError, 0x0000, 0x0200⟩, 0x0202) := by
  decide

/-- V6#1: a halted core changes nothing but DC. -/
theorem test_halted_step :
    nextOf (step { State.reset with fault := ⟨.decodeError, 0x8008, 0x0200⟩, pc := 0x202, dc := true }) =
      some { State.reset with fault := ⟨.decodeError, 0x8008, 0x0200⟩, pc := 0x202, dc := false } := by decide

/-- V6#6: the memory after reset. -/
theorem test_reset_memory :
    [0x000, 0x050, 0x051, 0x052, 0x053, 0x054].map State.reset.readByte = [0, 0xF0, 0x90, 0x90, 0x90, 0xF0] ∧
    [0x09B, 0x09C, 0x09D, 0x09E, 0x09F, 0x0A0].map State.reset.readByte = [0xF0, 0x80, 0xF0, 0x80, 0x80, 0] := by
  decide

/-- RESET lays the image P1 at 0x200 (R59, R250). -/
theorem test_reset_image :
    (nextOf (hostAct (.reset 1 [0x6A, 0xFF, 0x6B]) { State.reset with pc := 7 })).map
      (fun t => ([0x1FF, 0x200, 0x201, 0x202, 0x203].map t.readByte, t.pc, t.cfg)) =
      some ([0, 0x6A, 0xFF, 0x6B, 0], 0x200, ⟨true, false, false⟩) := by decide

/-- The places of CFG's bits (R31): SHIFT_VY bit 0, JUMP_VX bit 1, LS_INC bit 2. -/
theorem test_cfg_bits :
    Cfg.ofBits 0b001 = ⟨true, false, false⟩ ∧ Cfg.ofBits 0b010 = ⟨false, true, false⟩ ∧
    Cfg.ofBits 0b100 = ⟨false, false, true⟩ ∧ Cfg.toBits ⟨true, true, false⟩ = 0b011 := by decide

/-- V5#20, V5#21: ticks stop at 0. -/
theorem test_tick :
    (nextOf (hostRun [.tick, .tick, .tick] { State.reset with dt := 2, st := 1 })).map
      (fun t => (t.dt, t.st, t.soundOn)) = some (0, 0, false) := by decide

/-- V3#26: STEP carries the random byte. -/
theorem test_step_byte :
    (nextOf (hostAct (.step 0x3C) (State.reset.withFetchWord 16 0xC3FF))).map (fun t => (t.reg 3, t.rnd)) =
      some (0x3C, none) := by decide

/-- `withFetchWord` puts the word where the next fetch reads, in a halted core too. -/
theorem test_with_fetch_word :
    (State.reset.withFetchWord 16 0x1234).fetchWord = 0x1234 ∧
    ({ State.reset with fault := ⟨.decodeError, 0, 0⟩ }.withFetchWord 16 0x1234).halted = false := by decide

/-- R109, R255: a self-jump is an end. -/
theorem test_self_jump_end : (State.reset.withFetchWord 16 0x1200).runEnd = some .selfJump := by decide

/-! ## Assembly -/

/-- P1: the lines assemble to the image the spec gives. -/
theorem test_assemble_p1 :
    assembleText ["set-imm VA, 0xFF".toList, "set-imm VB, 0x02".toList, "add VA, VB".toList, "done: jump done".toList] =
      some [0x6A, 0xFF, 0x6B, 0x02, 0x8A, 0xB4, 0x12, 0x06] := by decide

/-- P2: a label defined later, and comments. -/
theorem test_assemble_p2 :
    assembleText ["call sub".toList, "skip-eq-imm V0, 0x05".toList, "set-imm V0, 0x99 ; skipped".toList,
      "done: jump done".toList, "sub: set-imm V0, 5".toList, "return".toList] =
      some [0x22, 0x08, 0x30, 0x05, 0x60, 0x99, 0x12, 0x06, 0x60, 0x05, 0x00, 0xEE] := by decide

/-- The directives: `.word` is big-endian (R83). -/
theorem test_assemble_directives :
    assembleText [".byte 0x7F".toList, ".word 0x1234".toList] = some [0x7F, 0x12, 0x34] ∧
    assembleText [".byte 256".toList] = none ∧ assembleText ["jump nowhere".toList] = none := by decide

/-! ## Witnesses: for each statement with hypotheses, a state and operands that meet all of them -/

/-- A core halted by a DecodeError, as V6#1 has it. -/
def haltedState : State := { State.reset with fault := ⟨.decodeError, 0x8008, 0x0200⟩, pc := 0x0202 }

/-- A core that will execute a word. -/
def ready (w : Nat) : State := State.reset.withFetchWord 16 w

/-- The next state, where there is one. -/
theorem next_of_nextOf {o : Outcome} {t : State} (h : nextOf o = some t) : o = .next t := by
  cases o <;> simp_all [nextOf]

theorem exists_next {o : Outcome} (h : (nextOf o).isSome = true) : ∃ t, o = .next t := by
  cases o <;> simp_all [nextOf]

/-- NonCanonicalWordsAreSkipsAlone: a non-canonical word of each group, and a canonical one. -/
theorem witness_non_canonical_words :
    (decode 0x512F = .ok (.skipEq 1 2) ∧ encode (.skipEq 1 2) ≠ 0x512F) ∧
    (decode 0x912A = .ok (.skipNeq 1 2) ∧ encode (.skipNeq 1 2) ≠ 0x912A) ∧
    (decode 0x8124 = .ok (.add 1 2) ∧ encode (.add 1 2) = 0x8124) := by decide

/-- DecodeReadsTheOpcodeTable: a word that matches a row, and one that matches none. -/
theorem witness_table_rows :
    ((0x8124 : Word) &&& Mnemonic.add.format.mask = Mnemonic.add.matchBits) ∧
    ∀ m : Mnemonic, (0x8008 : Word) &&& m.format.mask ≠ m.matchBits := by
  refine ⟨by decide, fun m => ?_⟩
  cases m <;> decide

/-- IllegalWordsAreExactlyThese: a state that fetches an illegal word of each group. -/
theorem witness_illegal_words :
    ∀ n ∈ [0x01E0, 0x8008, 0xE01E, 0xF000],
      (ready n).halted = false ∧ (ready n).fetchWord = BitVec.ofNat 16 n ∧
        (decode (BitVec.ofNat 16 n)).toOption = none := by decide

/-- FetchIsBigEndianAndWraps: the last address, whose second byte is at 0x000. -/
theorem witness_fetch : (0xFFFF : Nat) < 65536 ∧ (0xFFFF + 1) % 4096 = 0 := by decide

/-- StepRunsTheDecodedInstruction. -/
theorem witness_step : (ready 0x8124).halted = false ∧ decode (ready 0x8124).fetchWord = .ok (.add 1 2) := by decide

/-- FaultsArePreciseAndRecorded, and both clauses of ProgramCounterAfterEachInstruction: each cause, and no fault. -/
theorem witness_faults :
    (nextOf (step (ready 0x8008))).map State.halted = some true ∧
    (nextOf (step (ready 0x00EE))).map State.halted = some true ∧
    (nextOf (step { ready 0x2300 with params := { Config.Params.default with stackDepth := some 0 } })).map
      State.halted = some true ∧
    (nextOf (step (ready 0x8124))).map State.halted = some false := by decide

/-- HaltLastsUntilReset. -/
theorem witness_halt : haltedState.halted = true ∧ ∀ a ∈ [HostAction.tick, .step 0], notReset a := by
  refine ⟨by decide, fun a ha => ?_⟩
  simp at ha
  rcases ha with rfl | rfl <;> trivial

/-- StepKeepsTheInvariant and HostRunsKeepTheInvariant: the invariant holds, before a step and in a halted core. -/
theorem witness_invariant :
    State.reset.Inv ∧ haltedState.Inv ∧ (∃ t, step State.reset = .next t) ∧
      ∃ t, hostRun [.tick, .step 0, .reset 0 []] haltedState = .next t :=
  ⟨⟨by decide, by decide, rfl⟩, ⟨by decide, by decide, ⟨.group8, by decide⟩, by decide⟩,
    exists_next (by decide), exists_next (by decide)⟩

/-- InstructionsWriteOnlyWhatTheirRulesName: an instruction that stores nothing; and one that does, with the last byte it
stores to, round the end of memory, and the first it does not. -/
theorem witness_exec :
    (∃ t, exec (.add 1 2) State.reset = .next t ∧ ¬ StoresTo (.add 1 2) State.reset 0x200) ∧
    (let s := { State.reset with i := 0x0FFF }
     (∃ t, exec (.store 1) s = .next t) ∧ StoresTo (.store 1) s 0x000 ∧ ¬ StoresTo (.store 1) s 0x001) ∧
    ((ready 0xF155).halted = false ∧ decode (ready 0xF155).fetchWord = .ok (.store 1) ∧
      ∃ t, step (ready 0xF155) = .next t) := by
  refine ⟨⟨_, rfl, id⟩, ⟨⟨_, rfl⟩, ⟨1, by decide, by simp [SameCell, State.dataAddr]⟩, ?_⟩, by decide, by decide,
    exists_next (by decide)⟩
  rintro ⟨k, hk, h⟩
  simp [SameCell, State.dataAddr] at h
  have : k ≤ 1 := hk
  omega

/-- InstructionsReadOnlyTheirRegisters: a register the instruction does not read, under both settings of SHIFT_VY. -/
theorem witness_reads :
    ¬ regsRead ⟨false, false, false⟩ (.shiftRight 1 2) 2 ∧ ¬ regsRead ⟨true, false, false⟩ (.shiftRight 1 2) 1 ∧
    ¬ regsRead ⟨false, false, false⟩ (.store 3) 4 := by
  simp [regsRead]

/-- DisplayChangedExactlyForClearAndDraw and NoInstructionReadsTheSoundTimer. -/
theorem witness_step_answers : (∃ t, step (ready 0x00E0) = .next t) ∧ ∃ t, step (ready 0xF118) = .next t :=
  ⟨exists_next (by decide), exists_next (by decide)⟩

/-- SelfJumpIsAFixedPoint: at 0x200, and at the last address it holds for. -/
theorem witness_self_jump :
    ((ready 0x1200).halted = false ∧ (ready 0x1200).pc.toNat ≤ 0xFFF ∧
      (ready 0x1200).fetchWord.toNat = 0x1000 + (ready 0x1200).pc.toNat) ∧
    (let s := { State.reset with pc := 0xFFF, mem := [(0x000, 0xFF), (0xFFF, 0x1F)] }
     s.halted = false ∧ s.pc.toNat ≤ 0xFFF ∧ s.fetchWord.toNat = 0x1000 + s.pc.toNat) := by decide

/-- ProtectedFontNeverChanges: a bcd at the font region. -/
theorem witness_font :
    let s := { ready 0xF033 with i := 0x09E }
    s.mem.wf = true ∧ s.params.fontWriteProtect = true ∧ (∀ a ∈ [HostAction.step 0], notReset a) ∧
      ∃ t, hostRun [.step 0] s = .next t := by
  refine ⟨by decide, by decide, fun a ha => ?_, exists_next (by decide)⟩
  simp at ha
  rw [ha]
  trivial

/-- MemoriesThatReadAlikeAreEqual: a memory in canonical form, made in two ways. -/
theorem witness_memories :
    Memory.wf [(0x200, 0x12)] = true ∧ Memory.wf (((Memory.setCell [] 0x300 1).setCell 0x200 0x12).setCell 0x300 0) = true ∧
    ((Memory.setCell [] 0x300 1).setCell 0x200 0x12).setCell 0x300 0 = [(0x200, 0x12)] := by decide

/-- ReturnPopsTheStack, both clauses; in the second PC has wrapped. -/
theorem witness_return :
    ({ State.reset with stack := [0x202] } : State).stack = 0x202 :: [] ∧
    (({ State.reset with pc := 0x0000 } : State).pc = (0xFFFE : Word) + 2 ∧ State.reset.stack = []) := by decide

/-- CallPushesTheReturnAddress, both clauses, and ReturnComesBackFromCall: unbounded, one below the bound, at it. -/
theorem witness_call :
    State.reset.pc = (0x1FE : Word) + 2 ∧ State.reset.params.stackDepth ≠ some State.reset.stack.length ∧
    (let s := { State.reset with stack := [0x202], params := { Config.Params.default with stackDepth := some 2 } }
     s.params.stackDepth ≠ some s.stack.length) ∧
    (let s := { State.reset with stack := [0x202, 0x202], params := { Config.Params.default with stackDepth := some 2 } }
     s.params.stackDepth = some s.stack.length) := by decide

/-- SkipsOnTwoRegisters: words with the low nibble at both ends of its range. -/
theorem witness_skip_words :
    ((0x512F : Word).toNat = 0x5000 + (1 : RegIdx).val * 256 + (2 : RegIdx).val * 16 + 0xF) ∧
    ((0x9120 : Word).toNat = 0x9000 + (1 : RegIdx).val * 256 + (2 : RegIdx).val * 16 + 0x0) := by decide

/-- JumpOffsetAddsTheChosenRegister: both settings of JUMP_VX. -/
theorem witness_jump_offset :
    (0 : RegIdx).val = (if State.reset.cfg.jumpVx = true then (0xF34 : Addr12).toNat / 256 else 0) ∧
    (let s := { State.reset with cfg := ⟨false, true, false⟩ }
     (0xF : RegIdx).val = (if s.cfg.jumpVx = true then (0xF34 : Addr12).toNat / 256 else 0)) := by decide

/-- AddSetsTheCarry and SubtractionsSetTheStrictFlag: a destination other than VF. -/
theorem witness_not_vf : (0xE : RegIdx) ≠ VF := by decide

/-- ShiftsTakeTheConfiguredSource: both settings of SHIFT_VY. -/
theorem witness_shift :
    (1 : RegIdx) = (if State.reset.cfg.shiftVy = true then 2 else 1) ∧
    (let s := { State.reset with cfg := ⟨true, false, false⟩ }
     (2 : RegIdx) = (if s.cfg.shiftVy = true then 2 else 1)) := by decide

/-- RandomDrawsAFreshFreeValue. -/
theorem witness_random : State.reset.rnd = none := by decide

/-- AddIndexWrapsAndMaySetTheFlag: each setting, at and past its bound. -/
theorem witness_add_index :
    (let s := { regs [(2, 1)] with i := 0x0FFE }
     s.params.addIndexFlag = .range12 ∧ ¬ s.i.toNat + (s.reg 2).toNat > 0x0FFF) ∧
    (let s := { regs [(2, 1)] with i := 0x0FFF }
     s.params.addIndexFlag = .range12 ∧ s.i.toNat + (s.reg 2).toNat > 0x0FFF) ∧
    (let s := { regs [(2, 1)] with i := 0x00FF, params := { Config.Params.default with addIndexFlag := .carry8 } }
     s.params.addIndexFlag = .carry8 ∧ s.i.toNat % 256 + (s.reg 2).toNat > 0xFF) := by decide

/-- BcdStoresTheDigits and StoreWritesTheBlock: the last discarded address, and the first that is not. -/
theorem witness_discarded :
    State.reset.mem.wf = true ∧ Discarded State.reset 0x050 ∧ Discarded State.reset 0x09F ∧
    ¬ Discarded State.reset 0x04F ∧ ¬ Discarded State.reset 0x0A0 ∧
    ¬ SameCell 0x0A0 0x09F ∧ SameCell 0x1000 0x000 := by
  simp [Discarded, SameCell, State.reset, Config.Params.default, Memory.wf]

/-- LoadAfterStoreRecoversTheRegisters: V0 to VF at 0x0FF8, round the end of memory. -/
theorem witness_load_after_store :
    let s := { State.reset with i := 0x0FF8 }
    s.mem.wf = true ∧ ∀ k : RegIdx, k.val ≤ (0xF : RegIdx).val → ¬ Discarded s (s.i.toNat + k.val) := by
  refine ⟨by decide, fun k _ hd => ?_⟩
  have h1 := hd.2.1
  have h2 := hd.2.2
  have hk := k.isLt
  have : (0x0FF8 + k.val) % 4096 < 0x050 ∨ 0x09F < (0x0FF8 + k.val) % 4096 := by omega
  simp at h1 h2
  omega

/-- FetchSeesStoredBytes: two bytes at 0x300, fetched from there. -/
theorem witness_fetch_sees_store :
    let s := { State.reset with i := 0x0300 }
    s.mem.wf = true ∧ 1 ≤ (1 : RegIdx).val ∧ ¬ Discarded s s.i.toNat ∧ ¬ Discarded s (s.i.toNat + 1) := by
  simp [Discarded, State.reset, Memory.wf]

/-- DrawXorsTheClippedSprite: glyph 0 at (0, 0), its first row's bit 7 with a collision and its bit 3 without; and a cell
past the right edge of the sprite. -/
theorem witness_draw :
    (let s := { State.reset with i := 0x0050, display := State.reset.display.setPixel 0 0 true }
     s.display.pixel 0 0 = true ∧ spriteBit s 0 0 5 0 0 = true) ∧
    (let s := { State.reset with i := 0x0050 }
     ∀ r c, s.display.pixel r c = true → spriteBit s 0 0 5 r c = false) ∧
    (let s := { State.reset with i := 0x0050 }
     spriteBit s 0 0 5 0 3 = true ∧ spriteBit s 0 0 5 0 4 = false ∧ spriteBit s 0 0 5 0 8 = false) := by
  refine ⟨by decide, fun r c h => ?_, by decide⟩
  simp [State.reset, Display.pixel] at h

/-- DrawingTwiceRestoresTheDisplay. -/
theorem witness_draw_twice : (0 : RegIdx) ≠ VF ∧ (0xE : RegIdx) ≠ VF := by decide

/-- KeySkipsTestTheLowNibble: a value past 15. -/
theorem witness_key_skip : (5 : Fin 16).val = ((regs [(1, 0x15)]).reg 1).toNat % 16 := by decide

/-- WaitKeyTakesTheLowestKeyOrRewinds, both clauses, the second at the first key and at the last; WaitKeySpinsUntilAKey. -/
theorem witness_wait_key :
    (∀ k : Fin 16, (ready 0xF30A).keys[k.val] = false) ∧
    ((pressed [0, 7]).keys[(0 : Fin 16).val] = true ∧
      ∀ j : Fin 16, j.val < (0 : Fin 16).val → (pressed [0, 7]).keys[j.val] = false) ∧
    ((pressed [15]).keys[(15 : Fin 16).val] = true ∧
      ∀ j : Fin 16, j.val < (15 : Fin 16).val → (pressed [15]).keys[j.val] = false) ∧
    (ready 0xF30A).halted = false ∧ decode (ready 0xF30A).fetchWord = .ok (.waitKey 3) := by decide

/-- ResetBuildsTheInitialState: the longest image, and one byte more. -/
theorem witness_image_length :
    (List.replicate 0xE00 (0 : Byte)).length ≤ 0xE00 ∧ 0xE00 < (List.replicate 0xE01 (0 : Byte)).length := by
  rw [List.length_replicate, List.length_replicate]
  decide

/-- StepByteReachesRandomAlone: a halted core, a word that is no random, and a random. -/
theorem witness_step_byte :
    haltedState.halted = true ∧ (∀ x nn, decode (ready 0x8124).fetchWord ≠ .ok (.random x nn)) ∧
    (ready 0xC30F).halted = false ∧ decode (ready 0xC30F).fetchWord = .ok (.random 3 0x0F) := by
  refine ⟨by decide, fun x nn h => ?_, by decide, by decide⟩
  rw [show decode (ready 0x8124).fetchWord = .ok (.add 1 2) by decide] at h
  cases h

/-- EachMnemonicAssemblesToOneWord: operands at the ends of their ranges, and a label at the last address. -/
theorem witness_operands :
    (operandsWf Mnemonic.draw.format [.reg 15, .reg 0, .num 15] = true ∧ noLabel [.reg 15, .reg 0, .num 15]) ∧
    Mnemonic.jump.format = .nnn ∧ [("x", 0xFFF)].find? (fun e => e.1 == "x") = some ("x", 0xFFF) := by
  refine ⟨⟨by decide, fun name h => ?_⟩, by decide, by decide⟩
  simp at h

/-- A host that requests STEP at every moment. -/
def steadyHost : HostBehaviour := fun _ => some (.step 0)

/-- EveryRunEndsInOneWayOrHangs, and both clauses of UnreleasedWaitAndEndlessRecursionHang. -/
theorem witness_runs :
    steadyHost.NoReset ∧ steadyHost.KeepsStepping ∧
    (∀ n keys, steadyHost n = some (.keysWr keys) → ∀ k : Fin 16, keys[k.val] = false) ∧
    (let s := ready 0xF30A
     s.halted = false ∧ decode s.fetchWord = .ok (.waitKey 3) ∧ ∀ k : Fin 16, s.keys[k.val] = false) ∧
    (let s := ready 0x2200
     s.halted = false ∧ s.params.stackDepth = none ∧ s.pc.toNat ≤ 0xFFF ∧
       s.fetchWord.toNat = 0x2000 + s.pc.toNat) := by
  refine ⟨fun n cfg image h => ?_, fun n => ⟨n, 0, Nat.le_refl n, rfl⟩, fun n keys h => ?_, by decide, by decide⟩
  · simp [steadyHost] at h
  · simp [steadyHost] at h

/-- A host that only ticks lets a run neither end by itself nor hang: it is cut off (R255). -/
theorem test_ticks_alone_are_no_hang (s : State) : ¬ Hangs (fun _ => some .tick) s := by
  rintro ⟨h, _⟩
  obtain ⟨m, rnd, _, hm⟩ := h 0
  simp at hm

/-- R255: the reset state with an empty image and a host that steps ends halted. -/
theorem test_reset_run_halts : EndsBy steadyHost State.reset .halted :=
  ⟨1, { State.reset with fault := ⟨.decodeError, 0x0000, 0x0200⟩, pc := 0x0202 }, next_of_nextOf (by decide), by decide⟩

end Sys2Proof.Tests
end

/-! PROOFS. The family of spec/10_state.md: the frame rule (R24) and PC after each instruction (R26). The frames of the
shared operations come first and compose (`Frame.trans`, `Frame.mono`); each instruction's frame is put together from
those of the operations its meaning calls. -/

namespace Sys2Proof.Machine

/-! ### Frames compose -/

theorem Part.Same.trans {p : Part} {s t u : State} (h : p.Same s t) (h' : p.Same t u) : p.Same s u := by
  cases p
  case mem => exact fun a => (h' a).trans (h a)
  case random => exact ⟨h'.1.trans h.1, h'.2.trans h.2⟩
  all_goals exact Eq.trans h' h

/-- Two changes one after another touch what either of them touches. -/
theorem Frame.trans {r r' : RegIdx → Prop} {ps ps' : List Part} {s t u : State} (h : Frame r ps s t)
    (h' : Frame r' ps' t u) : Frame (fun k => r k ∨ r' k) (ps ++ ps') s u := by
  obtain ⟨hreg, hpart⟩ := h
  obtain ⟨hreg', hpart'⟩ := h'
  refine ⟨fun k hk => ?_, fun p hp => ?_⟩
  · exact (hreg' k fun e => hk (.inr e)).trans (hreg k fun e => hk (.inl e))
  · exact (hpart p fun e => hp (List.mem_append_left _ e)).trans (hpart' p fun e => hp (List.mem_append_right _ e))

/-- A frame may name more than is touched. -/
theorem Frame.mono {r r' : RegIdx → Prop} {ps ps' : List Part} {s t : State} (h : Frame r ps s t)
    (hr : ∀ k, r k → r' k) (hp : ps ⊆ ps') : Frame r' ps' s t :=
  ⟨fun k hk => h.1 k fun e => hk (hr k e), fun p hn => h.2 p fun e => hn (hp e)⟩

theorem Frame.refl (s : State) : Frame noReg [] s s :=
  ⟨fun _ _ => rfl, fun p _ => by cases p <;> simp [Part.Same]⟩

/-! ### The frame of each shared operation -/

section
variable (s : State)

theorem setReg_frame (k : RegIdx) (x : Byte) : Frame (fun j => j = k) [] s (s.setReg k x) :=
  ⟨fun _ hj => State.setReg_reg_other hj s x, fun p _ => by cases p <;> simp [Part.Same]⟩

/-- VX and VF are written, and nothing else (R131). -/
theorem setRegAndFlag_frame (k : RegIdx) (x : Byte) (c : Bool) :
    Frame (fun j => j = k ∨ j = VF) [] s (s.setRegAndFlag k x c) :=
  (setReg_frame s k x).trans (setReg_frame _ VF (flagByte c))

theorem raiseFlagIf_frame (c : Bool) : Frame (fun j => j = VF) [] s (s.raiseFlagIf c) := by
  cases c
  · exact (Frame.refl s).mono (fun _ => False.elim) (List.nil_subset _)
  · exact setReg_frame s VF 1

theorem setIndex_frame (x : Word) : Frame noReg [.i] s (s.setIndex x) :=
  ⟨fun _ _ => rfl, fun p hp => by cases p <;> simp_all [Part.Same]⟩

theorem setPc_frame (x : Word) : Frame noReg [.pc] s (s.setPc x) :=
  ⟨fun _ _ => rfl, fun p hp => by cases p <;> simp_all [Part.Same]⟩

theorem skipIf_frame (c : Bool) : Frame noReg [.pc] s (s.skipIf c) := by
  cases c
  · exact (Frame.refl s).mono (fun _ => id) (List.nil_subset _)
  · exact setPc_frame s (s.pc + 2)

theorem push_frame (x : Word) : Frame noReg [.stack] s (s.push x) :=
  ⟨fun _ _ => rfl, fun p hp => by cases p <;> simp_all [Part.Same]⟩

theorem dropTop_frame : Frame noReg [.stack] s s.dropTop :=
  ⟨fun _ _ => rfl, fun p hp => by cases p <;> simp_all [Part.Same]⟩

theorem setDelay_frame (x : Byte) : Frame noReg [.dt] s (s.setDelay x) :=
  ⟨fun _ _ => rfl, fun p hp => by cases p <;> simp_all [Part.Same]⟩

theorem setSound_frame (x : Byte) : Frame noReg [.st] s (s.setSound x) :=
  ⟨fun _ _ => rfl, fun p hp => by cases p <;> simp_all [Part.Same]⟩

theorem setDc_frame (x : Bool) : Frame noReg [.dc] s (s.setDc x) :=
  ⟨fun _ _ => rfl, fun p hp => by cases p <;> simp_all [Part.Same]⟩

theorem setDisplay_frame (d : Display) : Frame noReg [.display] s (s.setDisplay d) :=
  ⟨fun _ _ => rfl, fun p hp => by cases p <;> simp_all [Part.Same]⟩

theorem consumeRandom_frame : Frame noReg [.random] s s.consumeRandom :=
  ⟨fun _ _ => by simp, fun p hp => by cases p <;> simp_all [Part.Same]⟩

theorem writeByte_frame (a : Nat) (x : Byte) : Frame noReg [.mem] s (s.writeByte a x) :=
  ⟨fun _ _ => by simp, fun p hp => by cases p <;> simp_all [Part.Same]⟩

theorem storeRegs_frame (base : Nat) (ks : List RegIdx) : Frame noReg [.mem] s (s.storeRegs base ks) :=
  ⟨fun _ _ => by simp, fun p hp => by cases p <;> simp_all [Part.Same]⟩

theorem loadRegs_frame (base : Nat) (ks : List RegIdx) : Frame (fun j => j ∈ ks) [] s (s.loadRegs base ks) :=
  ⟨fun _ hj => by rw [State.loadRegs_reg, if_neg hj], fun p _ => by cases p <;> simp [Part.Same]⟩

/-- The fetch advances PC and clears DC, and touches nothing else (R25, R262). -/
theorem afterFetch_frame : Frame noReg [.pc, .dc] s s.afterFetch :=
  ((setPc_frame s (s.pc + 2)).trans (setDc_frame _ false)).mono (fun _ h => h.elim id id) (List.Subset.refl _)

end

/-- Taking a fault touches FAULT and DC alone (R222). -/
theorem raiseFault_frame {kind : FaultKind} {w a : Word} {s t : State} (h : raiseFault kind w a s = .next t) :
    Frame noReg [.fault, .dc] s t := by
  cases h
  exact ⟨fun _ _ => rfl, fun p hp => by cases p <;> simp_all [Part.Same, State.readByte]⟩

/-! ### What an instruction writes (R24) -/

/-- Return touches PC and S, or on the fault FAULT and DC (R101). -/
theorem execRet_frame {s t : State} (h : execRet s = .next t) : Frame noReg [.pc, .stack, .fault, .dc] s t := by
  unfold execRet at h
  split at h
  · exact (raiseFault_frame h).mono (fun _ => id) (by simp)
  · cases h
    exact ((dropTop_frame s).trans (setPc_frame _ _)).mono (fun _ h => h.elim id id) (by simp)

/-- Call touches PC and S, or on the fault FAULT and DC (R103). -/
theorem execCall_frame {nnn : Addr12} {s t : State} (h : execCall nnn s = .next t) :
    Frame noReg [.pc, .stack, .fault, .dc] s t := by
  unfold execCall at h
  split at h
  · exact (raiseFault_frame h).mono (fun _ => id) (by simp)
  · cases h
    exact ((push_frame s _).trans (setPc_frame _ _)).mono (fun _ h => h.elim id id) (by simp)

/-- Wait-key touches PC, or the register it names (R196). -/
theorem execWaitKey_frame {x : RegIdx} {s t : State} (h : execWaitKey x s = .next t) :
    Frame (fun k => k = x) [.pc] s t := by
  unfold execWaitKey at h
  split at h <;> cases h
  · exact (setPc_frame s _).mono (fun _ => False.elim) (List.Subset.refl _)
  · exact (setReg_frame s x _).mono (fun _ => id) (List.nil_subset _)

/-- R24 for one instruction: nothing outside its destinations and the parts its rule names is touched. -/
theorem exec_frame {i : Instr} {s t : State} (h : exec i s = .next t) :
    Frame (regsWritten i) (partsWritten i) s t := by
  cases i with
  | ret => exact execRet_frame h
  | call => exact execCall_frame h
  | waitKey => exact execWaitKey_frame h
  | clear =>
    cases h
    exact ((setDisplay_frame s _).trans (setDc_frame _ _)).mono (fun _ h => h.elim id id) (List.Subset.refl _)
  | draw =>
    cases h
    exact (((setDisplay_frame s _).trans (setReg_frame _ VF _)).trans (setDc_frame _ _)).mono
      (fun _ h => h.elim (fun h => h.elim False.elim id) False.elim) (List.Subset.refl _)
  | jump | jumpOffset => cases h; exact setPc_frame s _
  | skipEqImm | skipNeqImm | skipEq | skipNeq | skipIfKey | skipIfNotKey => cases h; exact skipIf_frame s _
  | setImm | addImm | set | or | and | xor | shiftRight | shiftLeft | getDelay => cases h; exact setReg_frame s _ _
  | add | sub | subYx => cases h; exact setRegAndFlag_frame s _ _ _
  | random =>
    cases h
    exact ((consumeRandom_frame s).trans (setReg_frame _ _ _)).mono (fun _ h => h.elim False.elim id)
      (List.Subset.refl _)
  | setIndex | fontChar => cases h; exact setIndex_frame s _
  | addIndex =>
    cases h
    exact ((setIndex_frame s _).trans (raiseFlagIf_frame _ _)).mono (fun _ h => h.elim False.elim id)
      (List.Subset.refl _)
  | setDelay => cases h; exact setDelay_frame s _
  | setSound => cases h; exact setSound_frame s _
  | bcd =>
    cases h
    exact (((writeByte_frame s _ _).trans (writeByte_frame _ _ _)).trans (writeByte_frame _ _ _)).mono
      (fun _ h => h.elim (fun h => h.elim id id) id) (by simp [partsWritten])
  | store =>
    cases h
    exact ((storeRegs_frame s _ _).trans (setIndex_frame _ _)).mono (fun _ h => h.elim id id) (List.Subset.refl _)
  | load =>
    cases h
    exact ((loadRegs_frame s _ _).trans (setIndex_frame _ _)).mono (fun _ h => h.elim mem_regsUpTo.mp False.elim)
      (List.Subset.refl _)

/-- Bcd leaves every byte but those at I to I + 2 (R174). -/
theorem execBcd_readByte {x : RegIdx} {s t : State} (h : execBcd x s = .next t) {a : Nat}
    (ha : ∀ k < 3, ¬ SameCell a (s.dataAddr k)) : t.readByte a = s.readByte a := by
  cases h
  rw [State.writeByte_readByte_other (ha 2 (by omega)), State.writeByte_readByte_other (ha 1 (by omega)),
    State.writeByte_readByte_other (ha 0 (by omega))]

/-- Store leaves every byte but those at I to I + X (R175). -/
theorem execStore_readByte {x : RegIdx} {s t : State} (h : execStore x s = .next t) {a : Nat}
    (ha : ∀ k ≤ x.val, ¬ SameCell a (s.dataAddr k)) : t.readByte a = s.readByte a := by
  cases h
  exact State.storeRegs_readByte_other s _ _ a fun k hk => ha k.val (mem_regsUpTo.mp hk)

/-- Of memory an instruction writes only the cells it stores to (R56): bcd and store by their addresses, every other one
by its frame. -/
theorem exec_readByte {i : Instr} {s t : State} (h : exec i s = .next t) {a : Nat} (ha : ¬ StoresTo i s a) :
    t.readByte a = s.readByte a := by
  by_cases hm : Part.mem ∈ partsWritten i
  · cases i with
    | bcd => exact execBcd_readByte h fun k hk e => ha ⟨k, hk, e⟩
    | store => exact execStore_readByte h fun k hk e => ha ⟨k, hk, e⟩
    | _ => simp [partsWritten] at hm
  · exact (exec_frame h).2 .mem hm a

/-! ### The cycle -/

/-- A cycle whose word decodes runs the instruction on the state the fetch has left (R262). -/
theorem step_of_decode_ok {s : State} {i : Instr} (h : s.halted = false) (hd : decode s.fetchWord = .ok i) :
    step s = exec i s.afterFetch := by
  simp [step, h, hd]

/-- The fetch does not move the cells an instruction stores to. -/
theorem storesTo_afterFetch {i : Instr} {s : State} {a : Nat} : StoresTo i s.afterFetch a ↔ StoresTo i s a := by
  cases i <;> exact Iff.rfl

/-- Settles O15: the frame of each instruction, composed for the cycle with the frame of the fetch. -/
theorem instructionsWriteOnlyWhatTheirRulesName : Obligations.InstructionsWriteOnlyWhatTheirRulesName := by
  refine ⟨fun i s t h => ⟨exec_frame h, fun a => exec_readByte h⟩, fun i s t hs hd h => ?_⟩
  rw [step_of_decode_ok hs hd] at h
  refine ⟨?_, fun a ha => exec_readByte h (mt storesTo_afterFetch.mp ha)⟩
  exact ((afterFetch_frame s).trans (exec_frame h)).mono (fun _ h => h.elim False.elim id) (List.Subset.refl _)

/-! ### Where an instruction leaves PC (R26) -/

theorem zext16_eq (nnn : Addr12) : zext16 nnn = BitVec.ofNat 16 nnn.toNat := by
  simp [zext16]

/-- Jump-offset's target, the sum as a number (R108). -/
theorem zext16_add (nnn : Addr12) (b : Byte) :
    zext16 nnn + b.zeroExtend 16 = BitVec.ofNat 16 (nnn.toNat + b.toNat) := by
  simp [zext16, BitVec.ofNat_add]

/-- The register jump-offset adds, by the number in bits 11 to 8 (R108). -/
theorem State.jumpReg_eq (s : State) (nnn : Addr12) :
    s.jumpReg nnn = if s.cfg.jumpVx = true then Fin.ofNat 16 (nnn.toNat / 256) else 0 := by
  have hx : ofNibble (nnn.extractLsb' 8 4) = Fin.ofNat 16 (nnn.toNat / 256) := by
    apply Fin.ext
    simp [Nat.shiftRight_eq_div_pow]
  rw [State.jumpReg, hx]

/-- The key a register names, by its value modulo 16 (R191). -/
theorem State.keyDown_eq (s : State) (x : RegIdx) : s.keyDown x = s.keys[(s.reg x).toNat % 16]! := by
  have hlt : (s.reg x).toNat % 16 < 16 := Nat.mod_lt _ (by decide)
  rw [getElem!_pos s.keys _ hlt]
  simp only [State.keyDown, lowNibble_val]

/-- Wait-key steps back exactly when no key is down (R196). -/
theorem execWaitKey_pc {x : RegIdx} {s t : State} (h : execWaitKey x s = .next t) :
    t.pc = if ∀ k : Fin 16, s.keys[k.val] = false then s.pc - 2 else s.pc := by
  unfold execWaitKey at h
  split at h <;> cases h
  case h_1 hk => rw [if_pos (State.firstKey_eq_none.mp hk)]; rfl
  case h_2 hk => rw [if_neg (fun hn => by simp [State.firstKey_eq_none.mpr hn] at hk)]; rfl

/-- A fault ends halted, so an instruction that does not end halted has taken none. -/
theorem halted_of_raiseFault {kind : FaultKind} {w a : Word} {s t : State} (hk : kind ≠ .none)
    (h : raiseFault kind w a s = .next t) : t.halted = true := by
  cases h
  simpa [State.halted] using hk

/-- PC after an instruction that does not end halted is what R26 lists. -/
theorem exec_pc {i : Instr} {s t : State} (h : exec i s = .next t) (ht : t.halted = false) : t.pc = pcAfter i s := by
  cases i with
  | ret =>
    simp only [exec, execRet] at h
    split at h
    · simp [halted_of_raiseFault (by decide) h] at ht
    · cases h
      simp_all [pcAfter]
  | call nnn =>
    simp only [exec, execCall] at h
    split at h
    · simp [halted_of_raiseFault (by decide) h] at ht
    · cases h
      exact zext16_eq nnn
  | jump nnn => cases h; exact zext16_eq nnn
  | jumpOffset nnn =>
    cases h
    simp [pcAfter, zext16_add, State.jumpReg_eq]
  | waitKey => exact execWaitKey_pc h
  | skipEqImm | skipNeqImm | skipEq | skipNeq => cases h; simp [pcAfter, State.skipIf_pc]
  | skipIfKey | skipIfNotKey => cases h; simp [pcAfter, State.skipIf_pc, State.keyDown_eq]
  | _ => cases h; simp [pcAfter]

/-- A cycle that ends halted leaves PC past the word: a fault moves nothing but FAULT and DC (R26, R222). -/
theorem step_pc_of_fault {s t : State} (hs : s.halted = false) (h : step s = .next t) (ht : t.halted = true) :
    t.pc = s.pc + 2 := by
  cases hd : decode s.fetchWord with
  | error e =>
    rw [step_of_decode_error hs hd] at h
    cases h
    rfl
  | ok i =>
    rw [step_of_decode_ok hs hd] at h
    obtain ⟨-, -, rfl⟩ | ⟨_, -, -, rfl⟩ | ⟨hf, -⟩ := exec_fault_and_stack h
    · rfl
    · rfl
    · simp_all [State.halted]

/-- Settles O17: the fault leaves PC at a + 2, every other end is the instruction's own. -/
theorem programCounterAfterEachInstruction : Obligations.ProgramCounterAfterEachInstruction := by
  intro s t hs h
  refine ⟨step_pc_of_fault hs h, fun i ht hd => ?_⟩
  exact exec_pc (step_of_decode_ok hs hd ▸ h) ht

end Sys2Proof.Machine

/-! PROOFS. The family of spec/30_encoding.md: the decoder and the rows of the opcode table (R82). Masking a word by its
row's mask keeps the fields the decoder selects by, so a word and the row's match bits select the same arm. -/

namespace Sys2Proof

/-! ### The fields a row fixes -/

section
variable {w : Word} {m : Mnemonic}

/-- A mask of ones over a field keeps the field. -/
theorem extractLsb'_and_of_ones {mask : Word} {start len : Nat}
    (h : mask.extractLsb' start len = BitVec.allOnes len) (w : Word) :
    (w &&& mask).extractLsb' start len = w.extractLsb' start len := by
  rw [BitVec.extractLsb'_and, h, BitVec.and_allOnes]

/-- Every mask keeps the op field (R72). -/
theorem opField_and_mask (f : Format) (w : Word) : opField (w &&& f.mask) = opField w :=
  extractLsb'_and_of_ones (by cases f <;> rfl) w

/-- The mask of `XYS` keeps the last nibble (R76). -/
theorem nField_and_mask_xys (w : Word) : nField (w &&& Format.xys.mask) = nField w :=
  extractLsb'_and_of_ones rfl w

/-- The mask of `XS` keeps the last byte (R77). -/
theorem nnField_and_mask_xs (w : Word) : nnField (w &&& Format.xs.mask) = nnField w :=
  extractLsb'_and_of_ones rfl w

/-- A word has the op field of the row it matches. -/
theorem opField_of_row (h : w &&& m.format.mask = m.matchBits) : opField w = opField m.matchBits := by
  rw [← h, opField_and_mask]

/-- A word has the last nibble of the `XYS` row it matches. -/
theorem nField_of_row (hf : m.format = .xys) (h : w &&& m.format.mask = m.matchBits) :
    nField w = nField m.matchBits := by
  rw [← h, hf, nField_and_mask_xys]

/-- A word has the last byte of the `XS` row it matches. -/
theorem nnField_of_row (hf : m.format = .xs) (h : w &&& m.format.mask = m.matchBits) :
    nnField w = nnField m.matchBits := by
  rw [← h, hf, nnField_and_mask_xs]

/-- A `fixed` row is matched by its match bits alone (R75). -/
theorem eq_matchBits_of_row (hf : m.format = .fixed) (h : w &&& m.format.mask = m.matchBits) : w = m.matchBits := by
  rw [← h, hf]
  exact BitVec.and_allOnes.symm

/-! ### The groups that select further (R76, R77) -/

theorem decode_of_op_8 (h : opField w = 0x8) : decode w = decodeGroup8 w := by simp [decode, h]

theorem decode_of_op_E (h : opField w = 0xE) : decode w = decodeGroupE w := by simp [decode, h]

theorem decode_of_op_F (h : opField w = 0xF) : decode w = decodeGroupF w := by simp [decode, h]

/-! ### From the row to the instruction -/

/-- A word that matches a row decodes to an instruction of the row's name: the fields of the row's match bits lead the
decoder to the arm of that name. -/
theorem decode_of_row (h : w &&& m.format.mask = m.matchBits) : (decode w).map Instr.mnemonic = .ok m := by
  have hop := opField_of_row h
  cases m with
  | clear | ret =>
    cases eq_matchBits_of_row rfl h
    rfl
  | set | or | and | xor | add | sub | shiftRight | subYx | shiftLeft =>
    rw [decode_of_op_8 hop, decodeGroup8, nField_of_row rfl h]
    rfl
  | skipIfKey | skipIfNotKey =>
    rw [decode_of_op_E hop, decodeGroupE, nnField_of_row rfl h]
    rfl
  | getDelay | waitKey | setDelay | setSound | addIndex | fontChar | bcd | store | load =>
    rw [decode_of_op_F hop, decodeGroupF, nnField_of_row rfl h]
    rfl
  | _ =>
    rw [decode, hop]
    rfl

/-! ### From the instruction to the row -/

section
variable {i : Instr}

open Laws.EncodeMatchesRow (matches_op matches_op_nibble matches_op_byte)

/-- Group 0 reads the two words themselves (R75). -/
theorem row_of_decodeGroup0 (h : decodeGroup0 w = .ok i) : i.mnemonic.rowMatches w = true := by
  unfold decodeGroup0 at h
  split at h <;> cases h <;> rfl

/-- Group 8 reads the nine rows of format `XYS` (R76). -/
theorem row_of_decodeGroup8 (hop : opField w = 0x8) (h : decodeGroup8 w = .ok i) :
    i.mnemonic.rowMatches w = true := by
  unfold decodeGroup8 at h
  split at h <;> cases h <;> rename_i hn <;> exact matches_op_nibble hop hn rfl

/-- Group E reads its two rows of format `XS` (R77). -/
theorem row_of_decodeGroupE (hop : opField w = 0xE) (h : decodeGroupE w = .ok i) :
    i.mnemonic.rowMatches w = true := by
  unfold decodeGroupE at h
  split at h <;> cases h <;> rename_i hn <;> exact matches_op_byte hop hn rfl

/-- Group F reads its nine rows of format `XS` (R77). -/
theorem row_of_decodeGroupF (hop : opField w = 0xF) (h : decodeGroupF w = .ok i) :
    i.mnemonic.rowMatches w = true := by
  unfold decodeGroupF at h
  split at h <;> cases h <;> rename_i hn <;> exact matches_op_byte hop hn rfl

/-- A word that decodes matches the row of the instruction it decodes to. -/
theorem row_of_decode (h : decode w = .ok i) : i.mnemonic.rowMatches w = true := by
  unfold decode at h
  split at h
  case h_1 => exact row_of_decodeGroup0 h
  case h_9 hop => exact row_of_decodeGroup8 hop h
  case h_15 hop => exact row_of_decodeGroupE hop h
  case h_16 =>
    have hop : opField w = 0xF := by
      simp only [imp_false] at *
      bv_omega
    exact row_of_decodeGroupF hop h
  all_goals
    cases h
    rename_i hop
    exact matches_op hop rfl

end

/-! ### The table -/

/-- The row a word matches is the one of the instruction it decodes to. -/
theorem decode_iff_row : (∃ i, decode w = .ok i ∧ i.mnemonic = m) ↔ w &&& m.format.mask = m.matchBits := by
  constructor
  · rintro ⟨i, hd, rfl⟩
    exact eq_of_beq (row_of_decode hd)
  · intro h
    have hm := decode_of_row h
    cases hd : decode w with
    | error e => simp [hd, Except.map] at hm
    | ok i => exact ⟨i, rfl, by simpa [hd, Except.map] using hm⟩

/-- No word matches two rows: it decodes to one instruction, which has one name. -/
theorem row_unique {m' : Mnemonic} (h : w &&& m.format.mask = m.matchBits)
    (h' : w &&& m'.format.mask = m'.matchBits) : m = m' :=
  Except.ok.inj ((decode_of_row h).symm.trans (decode_of_row h'))

/-- A word that matches no row is a decode error. -/
theorem decode_error_of_no_row (h : ∀ m : Mnemonic, w &&& m.format.mask ≠ m.matchBits) :
    ∃ e, decode w = .error e := by
  cases hd : decode w with
  | error e => exact ⟨e, rfl⟩
  | ok i => exact absurd (decode_iff_row.mp ⟨i, hd, rfl⟩) (h i.mnemonic)

end

theorem Mnemonic.mem_all (m : Mnemonic) : m ∈ Mnemonic.all := by
  cases m <;> decide

/-- Settles O3: a word that decodes matches the row of its instruction, and a word that matches a row decodes to an
instruction of the row's name; that rows are disjoint and that no row means an error follow from these two. -/
theorem decodeReadsTheOpcodeTable : Obligations.DecodeReadsTheOpcodeTable :=
  ⟨fun _ _ => decode_iff_row, fun _ _ _ => row_unique, fun _ => decode_error_of_no_row, Mnemonic.mem_all⟩

end Sys2Proof

/-! PROOFS. The family of spec/40_control_flow.md: return, the jumps and the skips on registers and immediates (R101,
R102, R104 to R108). First every instruction's canonical word decodes to it, so that `Encodes` is left to say which number
the word is; then where each meaning leaves PC, as a number. -/

namespace Sys2Proof

/-- The decoder reads back every canonical word: each arm is selected by the fields the encoder has set (R74, R82). -/
theorem decode_encode (i : Instr) : decode (encode i) = .ok i := by
  cases i with
  | clear | ret => rfl
  | jump | call | setIndex | jumpOffset | skipEqImm | skipNeqImm | setImm | addImm | random | skipEq | skipNeq | draw =>
    simp [encode, decode]
  | set | or | and | xor | add | sub | shiftRight | subYx | shiftLeft =>
    rw [encode, decode_of_op_8 (opField_layoutXYN _ _ _ _)]
    simp [decodeGroup8]
  | skipIfKey | skipIfNotKey =>
    rw [encode, decode_of_op_E (opField_layoutXNN _ _ _)]
    simp [decodeGroupE]
  | getDelay | waitKey | setDelay | setSound | addIndex | fontChar | bcd | store | load =>
    rw [encode, decode_of_op_F (opField_layoutXNN _ _ _)]
    simp [decodeGroupF]

/-- A word whose number is made up as `XYN` makes it up is that layout (R72). -/
theorem eq_layoutXYN_of_toNat {w : Word} {op n : BitVec 4} {x y : RegIdx}
    (h : w.toNat = op.toNat * 4096 + x.val * 256 + y.val * 16 + n.toNat) : w = layoutXYN op x y n :=
  BitVec.eq_of_toNat_eq (h.trans (layoutXYN_toNat op x y n).symm)

/-- Group 5 does not examine the last nibble (R79, R106). -/
theorem decode_layoutXYN_5 (x y : RegIdx) (n : BitVec 4) : decode (layoutXYN 0x5 x y n) = .ok (.skipEq x y) := by
  simp [decode]

/-- Group 9 does not examine the last nibble (R79, R107). -/
theorem decode_layoutXYN_9 (x y : RegIdx) (n : BitVec 4) : decode (layoutXYN 0x9 x y n) = .ok (.skipNeq x y) := by
  simp [decode]

end Sys2Proof

namespace Sys2Proof.Machine

/-- The number of the canonical word is enough for `Encodes`: no other word has that number. -/
theorem encodes_of_encode_toNat {i : Instr} {n : Nat} (h : (encode i).toNat = n) : Encodes i n :=
  ⟨h, fun _ hw => BitVec.eq_of_toNat_eq (h.trans hw.symm) ▸ decode_encode i⟩

/-! ### Return (R101) -/

section
variable {s : State}

theorem execRet_of_stack_cons {top : Word} {rest : List Word} (h : s.stack = top :: rest) :
    execRet s = .next (s.dropTop.setPc top) := by
  simp [execRet, h]

theorem execRet_of_stack_nil (h : s.stack = []) :
    execRet s = raiseFault .stackUnderflow (encode .ret) s.fetchAddr s := by
  simp [execRet, h]

end

/-- A return that does not fault touches PC and S alone. -/
theorem dropTop_setPc_frame (s : State) (x : Word) : Frame noReg [.pc, .stack] s (s.dropTop.setPc x) :=
  ((dropTop_frame s).trans (setPc_frame _ x)).mono (fun _ h => h.elim id id) (by simp)

/-- Settles O23: the two arms of return, by whether S has a top. -/
theorem returnPopsTheStack : Obligations.ReturnPopsTheStack := by
  refine ⟨encodes_of_encode_toNat rfl, fun s top rest h => ?_, fun s h => ?_⟩
  · exact ⟨_, execRet_of_stack_cons h, rfl, by simp [h], dropTop_setPc_frame s top⟩
  · have hret := (execRet_of_stack_nil h).trans (raiseFault_eq _ _ _ _)
    exact ⟨_, hret, rfl, rfl, rfl, h, raiseFault_frame (raiseFault_eq _ _ _ s)⟩

/-! ### The jumps (R102, R108) -/

@[simp] theorem zext16_toNat (nnn : Addr12) : (zext16 nnn).toNat = nnn.toNat :=
  BitVec.toNat_setWidth_of_le (by decide)

/-- Settles O24: jump is `PC <- zext_16(NNN)`, and zero extension keeps the number. -/
theorem jumpSetsTheProgramCounter : Obligations.JumpSetsTheProgramCounter :=
  fun nnn s => ⟨encodes_of_encode_toNat (layoutNNN_toNat _ _), _, rfl, zext16_toNat nnn, setPc_frame s _⟩

/-- Jump-offset's sum is at most 0xFFF + 0xFF, so it does not wrap (R108). -/
theorem zext16_add_toNat (nnn : Addr12) (b : Byte) : (zext16 nnn + b.zeroExtend 16).toNat = nnn.toNat + b.toNat := by
  have hn := nnn.isLt
  have hb := b.isLt
  rw [zext16_add, BitVec.toNat_ofNat]
  omega

/-- The register jump-offset adds is the one whose number CFG.JUMP_VX selects (R108). -/
theorem State.jumpReg_of_val {s : State} {nnn : Addr12} {r : RegIdx}
    (h : r.val = if s.cfg.jumpVx = true then nnn.toNat / 256 else 0) : s.jumpReg nnn = r := by
  rw [State.jumpReg_eq]
  split at h
  · rw [if_pos ‹_›, ← h, Fin.ofNat_val_eq_self]
  · rw [if_neg ‹_›]
    exact (Fin.ext h).symm

/-- Settles O29: the selected register is the one the meaning adds, and the sum fits in 16 bits. -/
theorem jumpOffsetAddsTheChosenRegister : Obligations.JumpOffsetAddsTheChosenRegister := by
  intro nnn r s h
  refine ⟨encodes_of_encode_toNat (layoutNNN_toNat _ _), _, rfl, ?_, setPc_frame s _⟩
  rw [State.jumpReg_of_val h]
  exact zext16_add_toNat nnn (s.reg r)

/-! ### The skips (R104 to R107) -/

section
variable (s : State)

/-- PC after a skip instruction, as a number (R26). -/
theorem State.skipIf_pc_toNat (c : Bool) :
    (s.skipIf c).pc.toNat = if c = true then (s.pc.toNat + 2) % 65536 else s.pc.toNat := by
  rw [State.skipIf_pc, apply_ite BitVec.toNat]
  rfl

/-- A skip on equal bytes moves PC 2 further exactly when they are the same number (R104, R106). -/
theorem State.skipIf_beq_pc_toNat (a b : Byte) :
    (s.skipIf (a == b)).pc.toNat = if a.toNat = b.toNat then (s.pc.toNat + 2) % 65536 else s.pc.toNat := by
  simp [State.skipIf_pc_toNat, BitVec.toNat_inj]

/-- A skip on unequal bytes is the complement of the skip on equal ones (R105, R107). -/
theorem State.skipIf_bne_pc_toNat (a b : Byte) :
    (s.skipIf (a != b)).pc.toNat = if a.toNat = b.toNat then s.pc.toNat else (s.pc.toNat + 2) % 65536 := by
  simp [State.skipIf_pc_toNat, BitVec.toNat_inj]

end

/-- Settles O27: both skips are `skipIf`, on complementary conditions. -/
theorem skipsOnAnImmediate : Obligations.SkipsOnAnImmediate := fun x nn s =>
  ⟨encodes_of_encode_toNat (layoutXNN_toNat _ _ _), encodes_of_encode_toNat (layoutXNN_toNat _ _ _),
    ⟨_, rfl, skipIf_frame s _, s.skipIf_beq_pc_toNat (s.reg x) nn⟩,
    ⟨_, rfl, skipIf_frame s _, s.skipIf_bne_pc_toNat (s.reg x) nn⟩⟩

/-- Settles O28: each word is the layout with some last nibble, which the decoder ignores; both skips are `skipIf`, on
complementary conditions. -/
theorem skipsOnTwoRegisters : Obligations.SkipsOnTwoRegisters := by
  refine fun x y s => ⟨fun w n hn hw => ?_, fun w n hn hw => ?_, ?_, ?_⟩
  · rw [eq_layoutXYN_of_toNat (op := 0x5) (n := .ofNatLT n hn) hw]
    exact decode_layoutXYN_5 x y _
  · rw [eq_layoutXYN_of_toNat (op := 0x9) (n := .ofNatLT n hn) hw]
    exact decode_layoutXYN_9 x y _
  · exact ⟨_, rfl, skipIf_frame s _, s.skipIf_beq_pc_toNat (s.reg x) (s.reg y)⟩
  · exact ⟨_, rfl, skipIf_frame s _, s.skipIf_bne_pc_toNat (s.reg x) (s.reg y)⟩

end Sys2Proof.Machine

/-! PROOFS. The family of spec/41_arithmetic_logic.md: the instructions that write VX and no flag (R132 to R137, R140,
R142). Each is one `setReg`, so its frame is that of the write; what is left to each is the value written. -/

namespace Sys2Proof.Machine

/-- The number of a word of group 8, its selector first (R76, R82). -/
theorem encodes_of_layoutXYN_8 {i : Instr} {x y : RegIdx} (n : BitVec 4) (h : encode i = layoutXYN 0x8 x y n) :
    Encodes i (0x8000 + n.toNat + x.val * 256 + y.val * 16) := by
  refine encodes_of_encode_toNat ?_
  rw [h, layoutXYN_toNat]
  have hop : (0x8 : BitVec 4).toNat = 8 := rfl
  omega

/-- An instruction whose meaning is one register write leaves the value there and everything else as it was, VF
included unless it is the destination. -/
theorem exec_setReg_spec {i : Instr} {x : RegIdx} {b : Byte} {s : State} (h : exec i s = .next (s.setReg x b)) :
    ∃ t, exec i s = .next t ∧ t.reg x = b ∧ Frame (fun k => k = x) [] s t :=
  ⟨_, h, State.setReg_reg_same s x b, setReg_frame s x b⟩

/-- The same, of the value written as a number. -/
theorem exec_setReg_toNat {i : Instr} {x : RegIdx} {b : Byte} {n : Nat} {s : State}
    (h : exec i s = .next (s.setReg x b)) (hb : b.toNat = n) :
    ∃ t, exec i s = .next t ∧ (t.reg x).toNat = n ∧ Frame (fun k => k = x) [] s t := by
  obtain ⟨t, ht, hx, hf⟩ := exec_setReg_spec h
  exact ⟨t, ht, hx ▸ hb, hf⟩

/-- The same, of the value written bit by bit. -/
theorem exec_setReg_bits {i : Instr} {x : RegIdx} {b : Byte} {f : Nat → Bool} {s : State}
    (h : exec i s = .next (s.setReg x b)) (hb : ∀ k, b.getLsbD k = f k) :
    ∃ t, exec i s = .next t ∧ Frame (fun k => k = x) [] s t ∧ ∀ k, k < 8 → (t.reg x).getLsbD k = f k := by
  obtain ⟨t, ht, hx, hf⟩ := exec_setReg_spec h
  exact ⟨t, ht, hf, fun k _ => hx ▸ hb k⟩

/-! ### Set (R132, R134) -/

/-- Settles O30: both are one register write, of NN and of VY. -/
theorem setWritesOneRegister : Obligations.SetWritesOneRegister := fun x y nn _ =>
  ⟨encodes_of_encode_toNat (layoutXNN_toNat 0x6 x nn), encodes_of_layoutXYN_8 0x0 rfl,
    exec_setReg_spec (i := .setImm x nn) rfl, exec_setReg_spec (i := .set x y) rfl⟩

/-! ### Add immediate (R133) -/

/-- Settles O31: one register write, of the sum of two bytes, which is modulo 256. -/
theorem addImmediateWrapsWithoutFlag : Obligations.AddImmediateWrapsWithoutFlag := fun x nn s =>
  ⟨encodes_of_encode_toNat (layoutXNN_toNat 0x7 x nn),
    exec_setReg_toNat (i := .addImm x nn) rfl (BitVec.toNat_add (s.reg x) nn)⟩

/-! ### Logic (R135 to R137) -/

/-- Settles O32: each is one register write, of the bytes' own bitwise operation. -/
theorem logicIsBitwiseWithoutFlag : Obligations.LogicIsBitwiseWithoutFlag := fun x y _ =>
  ⟨encodes_of_layoutXYN_8 0x1 rfl, encodes_of_layoutXYN_8 0x2 rfl, encodes_of_layoutXYN_8 0x3 rfl,
    exec_setReg_bits (i := .or x y) rfl fun _ => BitVec.getLsbD_or,
    exec_setReg_bits (i := .and x y) rfl fun _ => BitVec.getLsbD_and,
    exec_setReg_bits (i := .xor x y) rfl fun _ => BitVec.getLsbD_xor⟩

/-! ### Shifts (R140, R142) -/

/-- A shift's source is the register CFG.SHIFT_VY selects. -/
theorem State.shiftSource_eq_reg {s : State} {x y r : RegIdx} (h : r = if s.cfg.shiftVy = true then y else x) :
    s.shiftSource x y = s.reg r := by
  rw [h, State.shiftSource, apply_ite s.reg]

/-- A byte shifted right by one is its half; the low bit is lost. -/
theorem byte_ushiftRight_one_toNat (b : Byte) : (b >>> 1).toNat = b.toNat / 2 := by
  rw [BitVec.toNat_ushiftRight, Nat.shiftRight_one]

/-- A byte shifted left by one is its double modulo 256; the high bit is lost. -/
theorem byte_shiftLeft_one_toNat (b : Byte) : (b <<< 1).toNat = b.toNat * 2 % 256 := by
  rw [BitVec.toNat_shiftLeft, Nat.shiftLeft_eq]

/-- Settles O35: each is one register write, of the selected source's half or double. -/
theorem shiftsTakeTheConfiguredSource : Obligations.ShiftsTakeTheConfiguredSource := by
  intro x y r s h
  refine ⟨encodes_of_layoutXYN_8 0x6 rfl, encodes_of_layoutXYN_8 0xE rfl, ?_, ?_⟩
  · refine exec_setReg_toNat (i := .shiftRight x y) rfl ?_
    rw [State.shiftSource_eq_reg h, byte_ushiftRight_one_toNat]
  · refine exec_setReg_toNat (i := .shiftLeft x y) rfl ?_
    rw [State.shiftSource_eq_reg h, byte_shiftLeft_one_toNat]

end Sys2Proof.Machine

/-! PROOFS. The family of spec/42_memory_index.md: the instructions that set I (R171, R173) and the load of a block
(R176). What the operands compute is put as a number first; the block's registers are `State.loadRegs_reg`. -/

namespace Sys2Proof.Machine

/-- The number of a word of group F, its selector first (R77, R82). -/
theorem encodes_of_layoutXNN_F {i : Instr} {x : RegIdx} (nn : Byte) (h : encode i = layoutXNN 0xF x nn) :
    Encodes i (0xF000 + nn.toNat + x.val * 256) := by
  refine encodes_of_encode_toNat ?_
  rw [h, layoutXNN_toNat]
  exact Nat.add_right_comm 0xF000 (x.val * 256) nn.toNat

/-! ### Set-index and font-char (R171, R173) -/

/-- The last glyph starts at 0x09B, so a glyph's address does not wrap (R57). -/
theorem glyphAddr_toNat (d : Fin 16) : (glyphAddr d).toNat = 0x050 + 5 * d.val :=
  (BitVec.toNat_ofNat _ 16).trans (Nat.mod_eq_of_lt (by omega))

/-- An instruction whose meaning is one write of I leaves the number there and everything else as it was. -/
theorem exec_setIndex_toNat {i : Instr} {w : Word} {n : Nat} {s : State} (h : exec i s = .next (s.setIndex w))
    (hw : w.toNat = n) : ∃ t, exec i s = .next t ∧ t.i.toNat = n ∧ Frame noReg [.i] s t :=
  ⟨_, h, hw, setIndex_frame s w⟩

/-- Settles O38: both are one write of I, of NNN zero-extended and of the glyph address of VX's low nibble. -/
theorem indexIsSetToAnAddressOrAGlyph : Obligations.IndexIsSetToAnAddressOrAGlyph := by
  refine fun nnn x s =>
    ⟨encodes_of_encode_toNat (layoutNNN_toNat 0xA nnn), encodes_of_layoutXNN_F 0x29 rfl, ?_, ?_⟩
  · exact exec_setIndex_toNat (i := .setIndex nnn) rfl (zext16_toNat nnn)
  · refine exec_setIndex_toNat (i := .fontChar x) rfl ?_
    rw [glyphAddr_toNat, lowNibble_val]

/-! ### Load (R176) -/

/-- I after a block of X + 1 bytes, as a number: it moves under CFG.LS_INC alone, modulo 2^16 (R175, R176). -/
theorem State.blockEnd_toNat (s : State) (x : RegIdx) :
    (s.blockEnd x).toNat = if s.cfg.lsInc = true then (s.i.toNat + x.val + 1) % 65536 else s.i.toNat := by
  rw [State.blockEnd, apply_ite BitVec.toNat, BitVec.toNat_add, BitVec.toNat_ofNat, Nat.add_mod_mod]
  rfl

/-- A register of the block that is loaded holds the byte of its address; the write of I that follows keeps it. -/
theorem loadBlock_reg {x k : RegIdx} (hk : k.val ≤ x.val) (s : State) (w : Word) :
    ((s.loadRegs (s.dataAddr 0) (regsUpTo x)).setIndex w).reg k = s.readByte (s.i.toNat + k.val) := by
  rw [State.setIndex_reg, State.loadRegs_reg, if_pos (mem_regsUpTo.mpr hk)]
  rfl

/-- Settles O42: the block's registers by `loadBlock_reg`, I by `State.blockEnd_toNat`, the rest by R24's frame. -/
theorem loadReadsTheBlock : Obligations.LoadReadsTheBlock := fun x s =>
  ⟨encodes_of_layoutXNN_F 0x65 rfl, _, rfl, exec_frame (i := .load x) rfl, fun _ hk => loadBlock_reg hk s _,
    s.blockEnd_toNat x⟩

end Sys2Proof.Machine

/-! PROOFS. The family of spec/43_io_display_timers.md: clear and draw (R192, R193), wait-key (R196) and the delay timer
(R197, R198). What drawing does to the display and to the collision is Laws/Display.lean's; here it is put in the terms
of the sprite bit that falls on a cell. The frames are those of the operations called, or of R24. -/

namespace Sys2Proof.Machine

/-! ### Clear (R192) -/

/-- The display with no cell lit has every cell off. -/
@[simp] theorem Display.blank_pixel (y : Fin 32) (x : Fin 64) : Display.blank.pixel y x = false := by
  simp [Display.blank, Display.pixel]

/-- Settles O45: the display written is the blank one; the rest is R24's frame. -/
theorem clearBlanksTheDisplay : Obligations.ClearBlanksTheDisplay := fun _ =>
  ⟨encodes_of_encode_toNat rfl, _, rfl, rfl, Display.blank_pixel, exec_frame (i := .clear) rfl⟩

/-! ### Draw (R193) -/

section
variable (s : State) (x0 y0 n : Nat)

/-- The sprite XORs onto the display, cell by cell, its own bit (R193). -/
theorem State.drawRows_range_pixel (r : Fin 32) (c : Fin 64) :
    (s.drawRows x0 y0 (List.range n) (s.display, false)).1.pixel r c =
      (s.display.pixel r c != spriteBit s x0 y0 n r c) := by
  rw [List.range_eq_range']
  exact s.drawRows_pixel x0 y0 n 0 (s.display, false) r c

/-- The collision is that some lit cell met a set sprite bit (R193). -/
theorem State.drawRows_range_collision :
    (s.drawRows x0 y0 (List.range n) (s.display, false)).2 = true ↔
      ∃ r c, s.display.pixel r c = true ∧ spriteBit s x0 y0 n r c = true := by
  rw [List.range_eq_range', State.drawRows_collision]
  simp only [Bool.false_eq_true, false_or, spriteBit, Bool.and_eq_true, decide_eq_true_eq]
  exact exists₂_congr fun _ _ => and_assoc.symm.trans and_comm

end

/-- A flag's byte is 1 or 0 (R23). -/
theorem flagByte_toNat (b : Bool) : (flagByte b).toNat = if b = true then 1 else 0 := by
  cases b <;> rfl

/-- VF after a draw is the collision, X or Y = F included: VF is written last (R193). -/
theorem execDraw_vf_toNat {x y : RegIdx} {n : RowCount} {s t : State} (h : execDraw x y n s = .next t) :
    (t.reg VF).toNat = if ∃ r c, s.display.pixel r c = true ∧
      spriteBit s ((s.reg x).toNat % 64) ((s.reg y).toNat % 32) n.val r c = true then 1 else 0 := by
  cases h
  rw [State.setDc_reg, State.setReg_reg_same, flagByte_toNat]
  exact if_congr (s.drawRows_range_collision (s.drawX x) (s.drawY y) n.val) rfl rfl

/-- The number of draw's word, its row count in the last nibble (R72, R82). -/
theorem encode_draw_toNat (x y : RegIdx) (n : RowCount) :
    (encode (.draw x y n)).toNat = 0xD000 + x.val * 256 + y.val * 16 + n.val := by
  rw [encode, layoutXYN_toNat, toNibble_toNat]
  rfl

/-- Settles O46: the cells by `State.drawRows_range_pixel`, VF by `execDraw_vf_toNat`, the rest by R24's frame. -/
theorem drawXorsTheClippedSprite : Obligations.DrawXorsTheClippedSprite := by
  refine fun x y n s => ⟨encodes_of_encode_toNat (encode_draw_toNat x y n), _, rfl, rfl,
    exec_frame (i := .draw x y n) rfl, s.drawRows_range_pixel _ _ n.val, fun hit => ?_, fun miss => ?_⟩
  · rw [execDraw_vf_toNat rfl, if_pos hit]
  · rw [execDraw_vf_toNat rfl, if_neg]
    rintro ⟨r, c, hlit, hbit⟩
    simp [miss r c hlit] at hbit

/-! ### Wait-key (R196) -/

/-- The first key is the lowest that is down (R196). -/
theorem State.firstKey_eq_some {s : State} {k : RegIdx} :
    s.firstKey = some k ↔ s.keys[k.val] = true ∧ ∀ j : Fin 16, j.val < k.val → s.keys[j.val] = false := by
  rw [State.firstKey, List.find?_eq_some_iff_getElem]
  simp only [List.getElem_finRange, List.length_finRange]
  refine and_congr_right fun _ => ⟨?_, fun hlow => ⟨k.val, k.isLt, rfl, fun j hj => ?_⟩⟩
  · rintro ⟨i, hi, rfl, hlow⟩ j hj
    simpa using hlow j.val hj
  · simpa using hlow ⟨j, hj.trans k.isLt⟩ hj

section
variable {x : RegIdx} {s : State}

theorem execWaitKey_of_firstKey_none (h : s.firstKey = none) : execWaitKey x s = .next (s.setPc (s.pc - 2)) := by
  simp [execWaitKey, h]

theorem execWaitKey_of_firstKey_some {k : RegIdx} (h : s.firstKey = some k) :
    execWaitKey x s = .next (s.setReg x (keyValue k)) := by
  simp [execWaitKey, h]

end

/-- A key's number fits in a byte. -/
theorem keyValue_toNat (k : RegIdx) : (keyValue k).toNat = k.val :=
  (BitVec.toNat_ofNat _ 8).trans (Nat.mod_eq_of_lt (by omega))

/-- Settles O49: the two arms of wait-key, by whether there is a first key. -/
theorem waitKeyTakesTheLowestKeyOrRewinds : Obligations.WaitKeyTakesTheLowestKeyOrRewinds := by
  refine fun x s => ⟨encodes_of_layoutXNN_F 0x0A rfl, fun hup => ?_, fun k hdown hlow => ?_⟩
  · exact ⟨_, execWaitKey_of_firstKey_none (State.firstKey_eq_none.mpr hup), rfl, setPc_frame s _⟩
  · exact exec_setReg_toNat (execWaitKey_of_firstKey_some (State.firstKey_eq_some.mpr ⟨hdown, hlow⟩)) (keyValue_toNat k)

/-! ### The delay timer (R197, R198) -/

/-- Settles O51: one register write, of DT, and one write of DT, of VX. -/
theorem delayTimerIsReadAndWritten : Obligations.DelayTimerIsReadAndWritten := fun x s =>
  ⟨encodes_of_layoutXNN_F 0x07 rfl, encodes_of_layoutXNN_F 0x15 rfl, exec_setReg_spec (i := .getDelay x) rfl,
    _, rfl, rfl, setDelay_frame s _⟩

end Sys2Proof.Machine

/-! PROOFS. What a cycle and a host action can do, said once for all the statements on runs: every one of them but a
refused RESET gives a next state (R220, R235), a cycle goes one of three ways (R223, R222, R262), and what every action
keeps a run keeps. Then the round trip of the encoding (R74, R82) and the invariant (R29, R32, R222). -/

namespace Sys2Proof.Machine

/-! ### The round trip of the encoding -/

/-- The bytes of an instruction, whatever follows them, are read as it (R70, R74). -/
theorem decodeBytes_encodeBytes (i : Instr) (rest : List Byte) :
    decodeBytes (encodeBytes i ++ rest) = .ok (i, rest) := by
  simp [decodeBytes, encodeBytes, decode_encode]

/-- Settles O1: the word by `decode_encode`, the bytes by the word they are cut from. -/
theorem decodeOfEncodeIsIdentity : Obligations.DecodeOfEncodeIsIdentity :=
  fun i => ⟨decode_encode i, decodeBytes_encodeBytes i⟩

/-! ### Every cycle gives a next state -/

section
variable {nnn : Addr12} {s : State}

/-- S is full at its bound (R29, R103). -/
theorem stackFull_iff : s.stackFull = true ↔ s.params.stackDepth = some s.stack.length := by
  rw [State.stackFull, beq_iff_eq]

theorem execCall_of_not_full (h : s.params.stackDepth ≠ some s.stack.length) :
    execCall nnn s = .next ((s.push s.pc).setPc (zext16 nnn)) :=
  if_neg (mt stackFull_iff.mp h)

theorem execCall_of_full (h : s.params.stackDepth = some s.stack.length) :
    execCall nnn s = .next { s with fault := ⟨.stackOverflow, encode (.call nnn), s.fetchAddr⟩, dc := false } :=
  if_pos (stackFull_iff.mpr h)

end

/-- An instruction always gives a next state: the faults of return and call are next states too (R220, R222). -/
theorem exec_next (i : Instr) (s : State) : ∃ t, exec i s = .next t := by
  cases i with
  | ret =>
    cases hs : s.stack with
    | nil => exact ⟨_, execRet_of_stack_nil hs⟩
    | cons top rest => exact ⟨_, execRet_of_stack_cons hs⟩
  | call nnn =>
    by_cases hfull : s.params.stackDepth = some s.stack.length
    · exact ⟨_, execCall_of_full hfull⟩
    · exact ⟨_, execCall_of_not_full hfull⟩
  | waitKey x =>
    cases hk : s.firstKey with
    | none => exact ⟨_, execWaitKey_of_firstKey_none hk⟩
    | some k => exact ⟨_, execWaitKey_of_firstKey_some hk⟩
  | _ => exact ⟨_, rfl⟩

theorem step_next (s : State) : ∃ t, step s = .next t := by
  cases hs : s.halted with
  | true => exact ⟨_, step_of_halted hs⟩
  | false =>
    cases hd : decode s.fetchWord with
    | error e => exact ⟨_, step_of_decode_error hs hd⟩
    | ok i => exact step_of_decode_ok hs hd ▸ exec_next i s.afterFetch

/-- Settles O11: each of the three ways a cycle can go gives a next state. -/
theorem everyCycleGivesANextState : Obligations.EveryCycleGivesANextState := step_next

/-- The three ways a cycle goes: the halted core's, the decode error's, and the decoded instruction's (R262). -/
theorem step_cases {s t : State} (h : step s = .next t) :
    (s.halted = true ∧ t = s.setDc false) ∨
    (s.halted = false ∧ (∃ e, decode s.fetchWord = .error e) ∧
      t = { s.afterFetch with fault := ⟨.decodeError, s.fetchWord, s.pc⟩ }) ∨
    (s.halted = false ∧ ∃ i, decode s.fetchWord = .ok i ∧ exec i s.afterFetch = .next t) := by
  cases hs : s.halted with
  | true =>
    rw [step_of_halted hs] at h
    cases h
    exact .inl ⟨rfl, rfl⟩
  | false =>
    cases hd : decode s.fetchWord with
    | error e =>
      rw [step_of_decode_error hs hd] at h
      cases h
      exact .inr (.inl ⟨rfl, ⟨e, rfl⟩, rfl⟩)
    | ok i =>
      rw [step_of_decode_ok hs hd] at h
      exact .inr (.inr ⟨rfl, i, rfl, h⟩)

/-- Settles O8: the instruction runs on the state the fetch has left, whose frame is `afterFetch_frame`. -/
theorem stepRunsTheDecodedInstruction : Obligations.StepRunsTheDecodedInstruction :=
  fun s _ hs hd => ⟨step_of_decode_ok hs hd, BitVec.toNat_add s.pc 2, rfl, afterFetch_frame s⟩

/-! ### Host actions and their runs -/

/-- STEP is the cycle with its byte, after which no byte is left (R235). -/
theorem stepWith_of_step {b : Byte} {s u : State} (h : step { s with rnd := some b } = .next u) :
    hostAct (.step b) s = .next { u with rnd := none } := by
  simp [hostAct, stepWith, h]

/-- A STEP that gives a next state came from a cycle that did. -/
theorem step_of_hostAct_step {b : Byte} {s t : State} (h : hostAct (.step b) s = .next t) :
    ∃ u, step { s with rnd := some b } = .next u ∧ t = { u with rnd := none } := by
  obtain ⟨u, hu⟩ := step_next { s with rnd := some b }
  rw [stepWith_of_step hu] at h
  cases h
  exact ⟨u, hu, rfl⟩

/-- Only RESET can be refused (R253). -/
theorem hostAct_next {a : HostAction} (ha : notReset a) (s : State) : ∃ t, hostAct a s = .next t := by
  cases a with
  | reset => exact ha.elim
  | step b =>
    obtain ⟨u, hu⟩ := step_next { s with rnd := some b }
    exact ⟨_, stepWith_of_step hu⟩
  | _ => exact ⟨_, rfl⟩

/-- A run of actions is the first of them and then the run of the rest (R237). -/
theorem hostRun_cons_next {a : HostAction} {as : List HostAction} {s t : State} :
    hostRun (a :: as) s = .next t ↔ ∃ u, hostAct a s = .next u ∧ hostRun as u = .next t := by
  rw [hostRun]
  cases hostAct a s <;> simp

/-- What each action of a list keeps, the run of the list keeps. -/
theorem hostRun_keeps (P : State → Prop) {acts : List HostAction}
    (keep : ∀ a ∈ acts, ∀ s t, P s → hostAct a s = .next t → P t) {s t : State} (hs : P s)
    (h : hostRun acts s = .next t) : P t := by
  induction acts generalizing s with
  | nil =>
    cases h
    exact hs
  | cons a as ih =>
    obtain ⟨u, hu, h⟩ := hostRun_cons_next.mp h
    exact ih (fun b hb => keep b (List.mem_cons_of_mem a hb)) (keep a List.mem_cons_self s u hs hu) h

/-- A run without a RESET always gives a next state. -/
theorem hostRun_next {acts : List HostAction} (hn : ∀ a ∈ acts, notReset a) (s : State) :
    ∃ t, hostRun acts s = .next t := by
  induction acts generalizing s with
  | nil => exact ⟨s, rfl⟩
  | cons a as ih =>
    obtain ⟨u, hu⟩ := hostAct_next (hn a List.mem_cons_self) s
    obtain ⟨t, ht⟩ := ih (fun b hb => hn b (List.mem_cons_of_mem a hb)) u
    exact ⟨t, hostRun_cons_next.mpr ⟨u, hu, ht⟩⟩

/-! ### The invariant -/

/-- The invariant is about M, S, FAULT, PC and the parameters alone. -/
theorem State.Inv.congr {s t : State} (hs : s.Inv) (hmem : t.mem = s.mem) (hstack : t.stack = s.stack)
    (hfault : t.fault = s.fault) (hpc : t.pc = s.pc) (hparams : t.params = s.params) : t.Inv := by
  obtain ⟨hwf, hbound, hcons⟩ := hs
  refine ⟨hmem ▸ hwf, by rwa [hparams, hstack], ?_⟩
  unfold State.FaultConsistent at *
  rwa [hfault, hpc, hstack, hparams]

/-- A core that is not halted and meets the invariant has the clear record (R222). -/
theorem State.Inv.fault_clear {s : State} (hs : s.Inv) (h : s.halted = false) : s.fault = .clear := by
  have hk : s.fault.kind = .none := by simpa [State.halted] using h
  simpa [State.FaultConsistent, hk] using hs.fault_consistent

/-- A record that is clear is consistent with any state. -/
theorem faultConsistent_of_clear {s : State} (h : s.fault = .clear) : s.FaultConsistent := by
  simp [State.FaultConsistent, h, FaultRecord.clear]

/-- After an instruction on an unhalted core the fault record agrees with the state: each fault it may raise leaves what
its kind says. -/
theorem exec_faultConsistent {i : Instr} {s t : State} (hs : s.fault = .clear) (h : exec i s = .next t) :
    t.FaultConsistent := by
  obtain ⟨-, hnil, rfl⟩ | ⟨nnn, -, hfull, rfl⟩ | ⟨hf, -⟩ := exec_fault_and_stack h
  · exact ⟨rfl, hnil, (BitVec.sub_add_cancel s.pc 2).symm⟩
  · exact ⟨opField_layoutNNN 0x2 nnn, hfull, (BitVec.sub_add_cancel s.pc 2).symm⟩
  · exact faultConsistent_of_clear (hf.trans hs)

/-- An instruction keeps a bounded stack within its bound: a call pushes only below it (R29, R103). -/
theorem exec_stack_bound {i : Instr} {s t : State} {n : Nat} (hs : s.stack.length ≤ n)
    (hn : s.params.stackDepth = some n) (h : exec i s = .next t) : t.stack.length ≤ n := by
  obtain ⟨-, -, rfl⟩ | ⟨-, -, -, rfl⟩ | ⟨-, ⟨-, -, hpush, hfull⟩ | ⟨-, top, hpop⟩ | ⟨-, -, hst⟩⟩ :=
    exec_fault_and_stack h
  · exact hs
  · exact hs
  · have hne : s.stack.length ≠ n := fun e => hfull (by rw [hn, e])
    rw [hpush, List.length_cons]
    omega
  · rw [hpop, List.length_cons] at hs
    omega
  · rwa [hst]

/-- An instruction on an unhalted core keeps the invariant. -/
theorem exec_keeps_inv {i : Instr} {s t : State} (hs : s.Inv) (hh : s.halted = false) (h : exec i s = .next t) :
    t.Inv := by
  obtain ⟨hparams, -, -, hwf⟩ := exec_keeps h
  refine ⟨hwf hs.mem_wf, fun n hn => ?_, exec_faultConsistent (hs.fault_clear hh) h⟩
  have hn' : s.params.stackDepth = some n := hparams ▸ hn
  exact exec_stack_bound (hs.stack_bound n hn') hn' h

/-- The fetch keeps the invariant of a core that is not halted. -/
theorem afterFetch_inv {s : State} (hs : s.Inv) (hh : s.halted = false) : s.afterFetch.Inv :=
  ⟨hs.mem_wf, hs.stack_bound, faultConsistent_of_clear (hs.fault_clear hh)⟩

/-- A cycle keeps the invariant, whichever of the three ways it goes. -/
theorem step_keeps_inv {s t : State} (hs : s.Inv) (h : step s = .next t) : t.Inv := by
  obtain ⟨-, rfl⟩ | ⟨-, he, rfl⟩ | ⟨hh, i, -, hx⟩ := step_cases h
  · exact hs.congr rfl rfl rfl rfl rfl
  · exact ⟨hs.mem_wf, hs.stack_bound, he, rfl⟩
  · exact exec_keeps_inv (afterFetch_inv hs hh) hh hx

/-- Settles O12: the halted cycle, the decode error and the instruction each keep it. -/
theorem stepKeepsTheInvariant : Obligations.StepKeepsTheInvariant := fun _ _ => step_keeps_inv

/-- RESET gives a state that meets the invariant, from any state (R250). -/
theorem construct_inv {p : Config.Params} {cfg : Cfg} {image : List Byte} {n : Nat} {t : State}
    (h : construct p cfg image n = .next t) : t.Inv := by
  unfold construct at h
  split at h <;> cases h
  exact ⟨resetMemory_wf p image, fun _ _ => Nat.zero_le _, rfl⟩

/-- Settles O13: nothing is stored, pushed or recorded. -/
theorem resetMeetsTheInvariant : Obligations.ResetMeetsTheInvariant :=
  ⟨rfl, fun _ _ => Nat.zero_le _, rfl⟩

/-- Every host action keeps the invariant: STEP as the cycle, RESET by what it builds, and the others touch nothing the
invariant is about. -/
theorem hostAct_keeps_inv {a : HostAction} {s t : State} (hs : s.Inv) (h : hostAct a s = .next t) : t.Inv := by
  cases a with
  | reset cfg image => exact construct_inv h
  | step b =>
    obtain ⟨u, hu, rfl⟩ := step_of_hostAct_step h
    have hb : State.Inv { s with rnd := some b } := hs.congr rfl rfl rfl rfl rfl
    exact (step_keeps_inv hb hu).congr rfl rfl rfl rfl rfl
  | _ =>
    cases h
    exact hs.congr rfl rfl rfl rfl rfl

/-- Settles O14: the run keeps what each action keeps. -/
theorem hostRunsKeepTheInvariant : Obligations.HostRunsKeepTheInvariant :=
  fun _ _ _ hs h => hostRun_keeps State.Inv (fun _ _ _ _ hu ha => hostAct_keeps_inv hu ha) hs h

end Sys2Proof.Machine

/-! PROOFS. The words of spec/30_encoding.md: which are not canonical (R79, R80), which are illegal, and how many decode
(R81). -/

namespace Sys2Proof.Machine

/-! ### Canonical words (R80) -/

section
variable (w : Word)

theorem layoutNNN_fields : layoutNNN (opField w) (nnnField w) = w := by
  apply BitVec.eq_of_toNat_eq
  rw [layoutNNN_toNat, opField_toNat, nnnField_toNat]
  omega

theorem layoutXNN_fields : layoutXNN (opField w) (xField w) (nnField w) = w := by
  apply BitVec.eq_of_toNat_eq
  rw [layoutXNN_toNat, opField_toNat, xField_val, nnField_toNat]
  omega

theorem layoutXYN_fields : layoutXYN (opField w) (xField w) (yField w) (nField w) = w := by
  apply BitVec.eq_of_toNat_eq
  rw [layoutXYN_toNat, opField_toNat, xField_val, yField_val, nField_toNat]
  omega

end

section
variable {w : Word} {i : Instr}

theorem encode_of_decodeGroup0 (h : decodeGroup0 w = .ok i) : encode i = w := by
  unfold decodeGroup0 at h
  split at h <;> cases h <;> rfl

theorem encode_of_decodeGroup8 (hop : opField w = 0x8) (h : decodeGroup8 w = .ok i) : encode i = w := by
  have hw := layoutXYN_fields w
  unfold decodeGroup8 at h
  split at h <;> cases h <;> rename_i hn <;> rwa [hop, hn] at hw

theorem encode_of_decodeGroupE (hop : opField w = 0xE) (h : decodeGroupE w = .ok i) : encode i = w := by
  have hw := layoutXNN_fields w
  unfold decodeGroupE at h
  split at h <;> cases h <;> rename_i hn <;> rwa [hop, hn] at hw

theorem encode_of_decodeGroupF (hop : opField w = 0xF) (h : decodeGroupF w = .ok i) : encode i = w := by
  have hw := layoutXNN_fields w
  unfold decodeGroupF at h
  split at h <;> cases h <;> rename_i hn <;> rwa [hop, hn] at hw

theorem decode_of_op_5 (h : opField w = 0x5) : decode w = .ok (.skipEq (xField w) (yField w)) := by
  simp [decode, h]

theorem decode_of_op_9 (h : opField w = 0x9) : decode w = .ok (.skipNeq (xField w) (yField w)) := by
  simp [decode, h]

/-- Outside groups 5 and 9 a word that decodes is the canonical word of its instruction (R79, R80). -/
theorem encode_of_decode (h5 : opField w ≠ 0x5) (h9 : opField w ≠ 0x9) (h : decode w = .ok i) : encode i = w := by
  have hnnn := layoutNNN_fields w
  have hxnn := layoutXNN_fields w
  have hxyn := layoutXYN_fields w
  unfold decode at h
  split at h
  case h_1 => exact encode_of_decodeGroup0 h
  case h_6 hop => exact absurd hop h5
  case h_9 hop => exact encode_of_decodeGroup8 hop h
  case h_10 hop => exact absurd hop h9
  case h_14 hop => cases h; rwa [hop] at hxyn
  case h_15 hop => exact encode_of_decodeGroupE hop h
  case h_16 =>
    have hop : opField w = 0xF := by
      simp only [imp_false] at *
      bv_omega
    exact encode_of_decodeGroupF hop h
  case h_2 hop | h_3 hop | h_11 hop | h_12 hop => cases h; rwa [hop] at hnnn
  all_goals
    cases h
    rename_i hop
    rwa [hop] at hxnn

/-- In groups 5 and 9 the canonical word has last nibble 0, so it differs from the word exactly when the word's is not 0
(R79, R80). -/
theorem layoutXYN_zero_ne_iff : layoutXYN (opField w) (xField w) (yField w) 0 ≠ w ↔ w.toNat % 16 ≠ 0 := by
  have hz : (0 : BitVec 4).toNat = 0 := rfl
  rw [ne_eq, ← BitVec.toNat_inj, layoutXYN_toNat, opField_toNat, xField_val, yField_val, hz]
  omega

end

/-- A word written as a number, its four nibbles apart (R72). -/
theorem ofNat_eq_layoutXYN (op : BitVec 4) (x y : RegIdx) {n : Nat} (hn : n < 16) :
    BitVec.ofNat 16 (op.toNat * 4096 + x.val * 256 + y.val * 16 + n) = layoutXYN op x y (.ofNatLT n hn) := by
  apply eq_layoutXYN_of_toNat
  rw [BitVec.toNat_ofNat, BitVec.toNat_ofNatLT]
  omega

/-- Settles O2: groups 5 and 9 by their canonical word, the others by `encode_of_decode`; and the decoder ignores the
last nibble of both groups. -/
theorem nonCanonicalWordsAreSkipsAlone : Obligations.NonCanonicalWordsAreSkipsAlone := by
  refine ⟨fun w i h => ?_, fun x y n hn => ⟨?_, ?_⟩⟩
  · have hop := opField_toNat w
    by_cases h5 : opField w = 0x5
    · cases (decode_of_op_5 h5).symm.trans h
      rw [h5] at hop
      rw [encode, ← h5, layoutXYN_zero_ne_iff, ← hop]
      simp
    by_cases h9 : opField w = 0x9
    · cases (decode_of_op_9 h9).symm.trans h
      rw [h9] at hop
      rw [encode, ← h9, layoutXYN_zero_ne_iff, ← hop]
      simp
    · have hne : ¬ (w.toNat / 4096 = 5 ∨ w.toNat / 4096 = 9) := by
        rw [← hop]
        bv_omega
      simp [encode_of_decode h5 h9 h, hne]
  · exact (congrArg decode (ofNat_eq_layoutXYN 0x5 x y hn)).trans (decode_layoutXYN_5 x y _)
  · exact (congrArg decode (ofNat_eq_layoutXYN 0x9 x y hn)).trans (decode_layoutXYN_9 x y _)

/-! ### The illegal words (R81) -/

/-- The numbers of the illegal words, group by group (R81). -/
def IllegalNumber (n : Nat) : Prop :=
  (n / 4096 = 0 ∧ n ≠ 0x00E0 ∧ n ≠ 0x00EE) ∨
  (n / 4096 = 8 ∧ n % 16 ∈ [8, 9, 0xA, 0xB, 0xC, 0xD, 0xF]) ∨
  (n / 4096 = 0xE ∧ n % 256 ≠ 0x9E ∧ n % 256 ≠ 0xA1) ∨
  (n / 4096 = 0xF ∧ n % 256 ∉ [0x07, 0x0A, 0x15, 0x18, 0x1E, 0x29, 0x33, 0x55, 0x65])

section
variable (w : Word)

theorem decodeGroup0_error_iff : (∃ e, decodeGroup0 w = .error e) ↔ w.toNat ≠ 0x00E0 ∧ w.toNat ≠ 0x00EE := by
  unfold decodeGroup0
  split
  · simp
  · simp
  · rename_i h1 h2
    simp only [imp_false] at h1 h2
    simp only [Except.error.injEq, exists_eq', true_iff]
    exact ⟨by bv_omega, by bv_omega⟩

theorem decodeGroup8_error_iff :
    (∃ e, decodeGroup8 w = .error e) ↔ w.toNat % 16 ∈ [8, 9, 0xA, 0xB, 0xC, 0xD, 0xF] := by
  rw [← nField_toNat w]
  unfold decodeGroup8
  split
  case h_10 =>
    simp only [imp_false] at *
    simp only [Except.error.injEq, exists_eq', true_iff, List.mem_cons, List.not_mem_nil, or_false]
    bv_omega
  all_goals simp_all

theorem decodeGroupE_error_iff :
    (∃ e, decodeGroupE w = .error e) ↔ w.toNat % 256 ≠ 0x9E ∧ w.toNat % 256 ≠ 0xA1 := by
  rw [← nnField_toNat w]
  unfold decodeGroupE
  split
  case h_3 =>
    simp only [imp_false] at *
    simp only [Except.error.injEq, exists_eq', true_iff]
    exact ⟨by bv_omega, by bv_omega⟩
  all_goals simp_all

theorem decodeGroupF_error_iff :
    (∃ e, decodeGroupF w = .error e) ↔
      w.toNat % 256 ∉ [0x07, 0x0A, 0x15, 0x18, 0x1E, 0x29, 0x33, 0x55, 0x65] := by
  rw [← nnField_toNat w]
  unfold decodeGroupF
  split
  case h_10 =>
    simp only [imp_false] at *
    simp only [Except.error.injEq, exists_eq', true_iff, List.mem_cons, List.not_mem_nil, or_false]
    bv_omega
  all_goals simp_all

/-- A word does not decode exactly when its number is one of R81's: outside the groups 0, 8, E and F every word does. -/
theorem decode_error_iff : (∃ e, decode w = .error e) ↔ IllegalNumber w.toNat := by
  have hnum := opField_toNat w
  unfold IllegalNumber
  rw [← hnum]
  by_cases h0 : opField w = 0x0
  · simp [decode, h0, decodeGroup0_error_iff]
  by_cases h8 : opField w = 0x8
  · simp [decode_of_op_8 h8, h8, decodeGroup8_error_iff]
  by_cases hE : opField w = 0xE
  · simp [decode_of_op_E hE, hE, decodeGroupE_error_iff]
  by_cases hF : opField w = 0xF
  · simp [decode_of_op_F hF, hF, decodeGroupF_error_iff]
  · have hlegal : ∀ e, decode w ≠ .error e := by
      unfold decode
      split
      case h_16 =>
        simp only [imp_false] at *
        bv_omega
      all_goals simp_all
    simp only [hlegal, exists_false, false_iff]
    bv_omega

end

/-- Settles O4: the numbers by `decode_error_iff`, the record by the cycle of a decode error. -/
theorem illegalWordsAreExactlyThese : Obligations.IllegalWordsAreExactlyThese := by
  refine fun w => ⟨decode_error_iff w, ?_⟩
  rintro s hs rfl ⟨e, he⟩
  exact ⟨_, step_of_decode_error hs he, rfl, rfl⟩

/-! ### How many words decode (R81) -/

/-- Of `q` periods of `a` numbers, those whose rest modulo `a` has a property are `q` times those below `a` that have
it. -/
theorem count_mod (r : Nat → Prop) [DecidablePred r] (a q : Nat) :
    Nat.count (fun n => r (n % a)) (a * q) = q * Nat.count r a := by
  have hperiod (k : Nat) : Nat.count (fun n => r ((a * k + n) % a)) a = Nat.count r a := by
    refine List.countP_congr fun n hn => ?_
    simp [Nat.mod_eq_of_lt (List.mem_range.mp hn)]
  induction q with
  | zero => simp
  | succ q ih => rw [Nat.mul_succ, Nat.count_add, ih, hperiod, Nat.succ_mul]

/-- Of the numbers below `N`, those of a list of such numbers are as many as the list has. -/
theorem count_mem {l : List Nat} {N : Nat} (hl : l.Nodup) (hN : ∀ n ∈ l, n < N) : Nat.count (· ∈ l) N = l.length := by
  have hset : (Finset.range N).filter (· ∈ l) = l.toFinset := by
    ext n
    simpa using hN n
  rw [Nat.count_eq_card_filter_range, hset, List.toFinset_card_of_nodup hl]

/-- A word decodes exactly when its number is not one of R81's. -/
theorem isSome_decode_iff (w : Word) : (decode w).toOption.isSome = true ↔ ¬ IllegalNumber w.toNat := by
  rw [← decode_error_iff]
  cases decode w <;> simp [Except.toOption]

/-- The count of a group that decodes by its numbers' rests modulo `a`: `q` words for each rest that decodes. -/
theorem decodedInGroup_of_rests {op a q : Nat} {l : List Nat} (hop : op < 16) (hq : a * q = 4096) (hl : l.Nodup)
    (hlt : ∀ n ∈ l, n < a) (hp : ∀ n, n < 4096 → (¬ IllegalNumber (op * 4096 + n) ↔ n % a ∈ l)) :
    decodedInGroup op = q * l.length := by
  have hcount : decodedInGroup op = Nat.count (fun n => n % a ∈ l) (a * q) := by
    rw [decodedInGroup, ← List.countP_eq_length_filter, hq]
    refine List.countP_congr fun n hn => ?_
    have hn : n < 4096 := List.mem_range.mp hn
    have hnum : (BitVec.ofNat 16 (op * 4096 + n)).toNat = op * 4096 + n := by
      rw [BitVec.toNat_ofNat]
      omega
    rw [isSome_decode_iff, hnum, hp n hn, decide_eq_true_iff]
  rw [hcount, count_mod (· ∈ l), count_mem hl hlt]

theorem decodedInGroup_0 : decodedInGroup 0x0 = 2 := by
  refine decodedInGroup_of_rests (a := 4096) (q := 1) (l := [0x00E0, 0x00EE]) (by decide) rfl (by decide)
    (by decide) fun n hn => ?_
  simp only [IllegalNumber, List.mem_cons, List.not_mem_nil, or_false]
  omega

/-- A group no rule of R81 names decodes whole. -/
theorem decodedInGroup_whole {op : Nat} (hop : op < 16) (h : op ∉ [0x0, 0x8, 0xE, 0xF]) :
    decodedInGroup op = 4096 := by
  refine decodedInGroup_of_rests (a := 1) (q := 4096) (l := [0]) hop rfl (by decide) (by decide) fun n hn => ?_
  simp only [List.mem_cons, List.not_mem_nil, or_false, not_or] at h
  simp only [IllegalNumber, List.mem_cons, List.not_mem_nil, or_false]
  omega

theorem decodedInGroup_8 : decodedInGroup 0x8 = 2304 := by
  refine decodedInGroup_of_rests (a := 16) (q := 256) (l := [0, 1, 2, 3, 4, 5, 6, 7, 0xE]) (by decide) rfl
    (by decide) (by decide) fun n hn => ?_
  simp only [IllegalNumber, List.mem_cons, List.not_mem_nil, or_false]
  omega

theorem decodedInGroup_E : decodedInGroup 0xE = 32 := by
  refine decodedInGroup_of_rests (a := 256) (q := 16) (l := [0x9E, 0xA1]) (by decide) rfl (by decide) (by decide)
    fun n hn => ?_
  simp only [IllegalNumber, List.mem_cons, List.not_mem_nil, or_false]
  omega

theorem decodedInGroup_F : decodedInGroup 0xF = 144 := by
  refine decodedInGroup_of_rests (a := 256) (q := 16) (l := [0x07, 0x0A, 0x15, 0x18, 0x1E, 0x29, 0x33, 0x55, 0x65])
    (by decide) rfl (by decide) (by decide) fun n hn => ?_
  simp only [IllegalNumber, List.mem_cons, List.not_mem_nil, or_false]
  omega

/-- Settles O5: each group by the numbers its rule leaves, and their sum. -/
theorem countOfWordsThatDecode : Obligations.CountOfWordsThatDecode := by
  refine ⟨decodedInGroup_0, fun op hop => ?_, decodedInGroup_8, decodedInGroup_E, decodedInGroup_F, ?_⟩
  · have hlt : op < 16 ∧ op ∉ [0x0, 0x8, 0xE, 0xF] := by
      revert op
      decide
    exact decodedInGroup_whole hlt.1 hlt.2
  · simp [List.range_succ, decodedInGroup_0, decodedInGroup_8, decodedInGroup_E, decodedInGroup_F,
      decodedInGroup_whole]

/-- Settles O6: each word's fields select its arm. -/
theorem decodesTheseWords : Obligations.DecodesTheseWords :=
  ⟨rfl, rfl, rfl, rfl, rfl, rfl⟩

end Sys2Proof.Machine

/-! PROOFS. The halt and the faults of spec/60_exceptions.md (R220 to R224) and the display-changed output (R33). -/

namespace Sys2Proof.Machine

/-! ### The halt (R223) -/

/-- What a halted core keeps until a RESET (R223). -/
structure Frozen (s t : State) : Prop where
  fault : t.fault = s.fault
  pc : t.pc = s.pc
  mem : t.mem = s.mem
  stack : t.stack = s.stack
  v : t.v = s.v
  i : t.i = s.i

theorem Frozen.trans {s t u : State} (h : Frozen s t) (h' : Frozen t u) : Frozen s u :=
  ⟨h'.fault.trans h.fault, h'.pc.trans h.pc, h'.mem.trans h.mem, h'.stack.trans h.stack, h'.v.trans h.v,
    h'.i.trans h.i⟩

theorem halted_of_fault_eq {s t : State} (h : t.fault = s.fault) : t.halted = s.halted := by
  rw [State.halted, h, State.halted]

/-- No host action but RESET moves a halted core: a STEP is the halted cycle, the others write what is not frozen. -/
theorem hostAct_frozen {a : HostAction} {s t : State} (ha : notReset a) (hs : s.halted = true)
    (h : hostAct a s = .next t) : Frozen s t := by
  cases a with
  | reset => exact ha.elim
  | step b =>
    rw [stepWith_of_step (step_of_halted (s := { s with rnd := some b }) hs)] at h
    cases h
    exact ⟨rfl, rfl, rfl, rfl, rfl, rfl⟩
  | _ =>
    cases h
    exact ⟨rfl, rfl, rfl, rfl, rfl, rfl⟩

/-- A run without a RESET leaves a halted core frozen. -/
theorem hostRun_frozen {acts : List HostAction} {s t : State} (hn : ∀ a ∈ acts, notReset a)
    (hs : s.halted = true) (h : hostRun acts s = .next t) : Frozen s t := by
  refine hostRun_keeps (Frozen s) (fun a ha u w hu hw => ?_) ⟨rfl, rfl, rfl, rfl, rfl, rfl⟩ h
  exact hu.trans (hostAct_frozen (hn a ha) ((halted_of_fault_eq hu.fault).trans hs) hw)

/-- Settles O10: the halted cycle by its frame, the run by what each of its actions keeps. -/
theorem haltLastsUntilReset : Obligations.HaltLastsUntilReset := by
  refine fun s hs => ⟨⟨_, step_of_halted hs, rfl, rfl, setDc_frame s false⟩, fun acts hn => ?_⟩
  obtain ⟨t, ht⟩ := hostRun_next hn s
  obtain ⟨hfault, hpc, hmem, hstack, hv, hi⟩ := hostRun_frozen hn hs ht
  exact ⟨t, ht, hfault, hpc, hmem, hstack, hv, hi⟩

/-! ### The display-changed output (R33) -/

/-- An instruction leaves DC at 0 but for clear and draw, which set it. -/
theorem exec_dc {i : Instr} {s t : State} (hs : s.dc = false) (h : exec i s = .next t) :
    t.dc = true ↔ i = .clear ∨ ∃ x y n, i = .draw x y n := by
  have hkeep (hp : Part.dc ∉ partsWritten i) : t.dc = false := Eq.trans (b := s.dc) ((exec_frame h).2 .dc hp) hs
  cases i with
  | clear | draw =>
    cases h
    simp
  | ret =>
    simp only [exec, execRet] at h
    split at h <;> cases h <;> simp [hs]
  | call =>
    simp only [exec, execCall] at h
    split at h <;> cases h <;> simp [hs]
  | _ => simp [hkeep (by simp [partsWritten])]

/-- Settles O18: the halted cycle and the decode error leave DC at 0, the instruction as `exec_dc` says. -/
theorem displayChangedExactlyForClearAndDraw : Obligations.DisplayChangedExactlyForClearAndDraw := by
  intro s t h
  obtain ⟨hs, rfl⟩ | ⟨hs, ⟨e, he⟩, rfl⟩ | ⟨hs, i, hd, hx⟩ := step_cases h
  · simp [hs]
  · simp [hs, he]
  · rw [exec_dc rfl hx]
    simp [hs, hd]

/-! ### Precise faults (R220 to R222) -/

/-- An instruction run on a core that is not halted halts it exactly on a stack fault (R220). -/
theorem exec_halted_iff {i : Instr} {s t : State} (hs : s.halted = false) (h : exec i s = .next t) :
    t.halted = true ↔ StackFault i s := by
  obtain ⟨rfl, hnil, rfl⟩ | ⟨nnn, rfl, hfull, rfl⟩ | ⟨hf, hst⟩ := exec_fault_and_stack h
  · simp [State.halted, StackFault, hnil]
  · simp [State.halted, StackFault, hfull]
  · rw [halted_of_fault_eq hf, hs]
    obtain ⟨nnn, rfl, -, hfull⟩ | ⟨rfl, top, hpop⟩ | ⟨hret, hcall, -⟩ := hst
    · simp [StackFault, hfull]
    · simp [StackFault, hpop]
    · simp [StackFault, hret, hcall]

/-- The word of a return, or of a call, is the instruction's own encoding: neither is in group 5 or 9. -/
theorem encode_of_decode_ret {w : Word} (h : decode w = .ok .ret) : encode .ret = w :=
  (eq_matchBits_of_row rfl (decode_iff_row.mp ⟨.ret, h, rfl⟩)).symm

theorem encode_of_decode_call {w : Word} {nnn : Addr12} (h : decode w = .ok (.call nnn)) : encode (.call nnn) = w := by
  have hop : opField w = 0x2 := opField_of_row (m := .call) (decode_iff_row.mp ⟨.call nnn, h, rfl⟩)
  exact encode_of_decode (by simp [hop]) (by simp [hop]) h

/-- The cause of the fault that a cycle of an unhalted core ended in, by the kind of the record (R220). -/
def FaultCause (s : State) : FaultKind → Prop
  | .none => False
  | .decodeError => ∃ e, decode s.fetchWord = .error e
  | .stackUnderflow => decode s.fetchWord = .ok .ret ∧ s.stack = []
  | .stackOverflow => ∃ nnn, decode s.fetchWord = .ok (.call nnn) ∧ s.params.stackDepth = some s.stack.length

/-- A cycle that halts the core has a cause, and differs from the fetched state in the record alone, which names the
cause, the word and its address (R221, R222). -/
theorem step_fault {s t : State} (hs : s.halted = false) (h : step s = .next t) (ht : t.halted = true) :
    ∃ kind, FaultCause s kind ∧ t = { s.afterFetch with fault := ⟨kind, s.fetchWord, s.pc⟩ } := by
  obtain ⟨hh, -⟩ | ⟨-, he, rfl⟩ | ⟨-, i, hd, hx⟩ := step_cases h
  · simp [hs] at hh
  · exact ⟨.decodeError, he, rfl⟩
  · have hpc : s.afterFetch.pc - 2 = s.pc := s.afterFetch_fetchAddr
    obtain ⟨rfl, hnil, rfl⟩ | ⟨nnn, rfl, hfull, rfl⟩ | ⟨hf, -⟩ := exec_fault_and_stack hx
    · refine ⟨.stackUnderflow, ⟨hd, hnil⟩, ?_⟩
      rw [hpc, ← encode_of_decode_ret hd]
      rfl
    · refine ⟨.stackOverflow, ⟨nnn, hd, hfull⟩, ?_⟩
      rw [hpc, encode_of_decode_call hd]
      rfl
    · have := halted_of_fault_eq hf
      simp_all

/-- No two kinds have a cause in one cycle. -/
theorem FaultCause.unique {s : State} {k k' : FaultKind} (h : FaultCause s k) (h' : FaultCause s k') : k = k' := by
  cases hd : decode s.fetchWord <;> cases k <;> cases k' <;> simp_all [FaultCause]

/-- A cycle of an unhalted core halts it exactly for a cause. -/
theorem step_halted_iff {s t : State} (hs : s.halted = false) (h : step s = .next t) :
    t.halted = true ↔ (∃ e, decode s.fetchWord = .error e) ∨ ∃ i, decode s.fetchWord = .ok i ∧ StackFault i s := by
  obtain ⟨hh, -⟩ | ⟨-, he, rfl⟩ | ⟨-, i, hd, hx⟩ := step_cases h
  · simp [hs] at hh
  · simp [State.halted, he]
  · rw [exec_halted_iff (s := s.afterFetch) hs hx]
    simp [hd, StackFault]

/-- The state after a fault differs from the one before it in PC, DC and FAULT (R222). -/
theorem fault_frame (s : State) (r : FaultRecord) : Frame noReg [.pc, .dc, .fault] s { s.afterFetch with fault := r } :=
  ⟨fun _ _ => rfl, fun p hp => by cases p <;> simp_all [Part.Same, State.readByte]⟩

/-- The codes tell the kinds apart (R32). -/
theorem FaultKind.code_toNat_inj (k : FaultKind) {k' : FaultKind} : k.code.toNat = k'.code.toNat ↔ k = k' := by
  cases k <;> cases k' <;> decide

/-- Settles O9: that it halts by `step_halted_iff`; the record, by its one cause. -/
theorem faultsArePreciseAndRecorded : Obligations.FaultsArePreciseAndRecorded := by
  refine fun s t hs h => ⟨step_halted_iff hs h, fun ht => ?_⟩
  obtain ⟨kind, hcause, rfl⟩ := step_fault hs h ht
  have hiff (k : FaultKind) : kind.code.toNat = k.code.toNat ↔ FaultCause s k :=
    kind.code_toNat_inj.trans ⟨fun e => e ▸ hcause, hcause.unique⟩
  exact ⟨rfl, rfl, rfl, rfl, fault_frame s _, hiff .decodeError, hiff .stackUnderflow, hiff .stackOverflow⟩

end Sys2Proof.Machine

/-! PROOFS. What no instruction sees: a register its row of R22 does not read, the sound timer (R30), and the random
byte (R40). One simulation serves all three: two states whose difference every operation keeps and none reads. -/

namespace Sys2Proof.Machine

/-! ### A difference no operation sees -/

/-- A relation of two states that differ in registers, ST and the random fields at most, kept when the same is written
to both. The reads of these parts are left out: what an instruction may read of them is a hypothesis of
`Unseen.exec`. -/
structure Unseen (R : State → State → Prop) : Prop where
  i : ∀ {s u}, R s u → u.i = s.i
  pc : ∀ {s u}, R s u → u.pc = s.pc
  stack : ∀ {s u}, R s u → u.stack = s.stack
  dt : ∀ {s u}, R s u → u.dt = s.dt
  mem : ∀ {s u}, R s u → u.mem = s.mem
  display : ∀ {s u}, R s u → u.display = s.display
  keys : ∀ {s u}, R s u → u.keys = s.keys
  cfg : ∀ {s u}, R s u → u.cfg = s.cfg
  fault : ∀ {s u}, R s u → u.fault = s.fault
  params : ∀ {s u}, R s u → u.params = s.params
  setReg : ∀ {s u}, R s u → ∀ k x, R (s.setReg k x) (u.setReg k x)
  setIndex : ∀ {s u}, R s u → ∀ x, R (s.setIndex x) (u.setIndex x)
  setPc : ∀ {s u}, R s u → ∀ x, R (s.setPc x) (u.setPc x)
  push : ∀ {s u}, R s u → ∀ x, R (s.push x) (u.push x)
  dropTop : ∀ {s u}, R s u → R s.dropTop u.dropTop
  setDelay : ∀ {s u}, R s u → ∀ x, R (s.setDelay x) (u.setDelay x)
  setDisplay : ∀ {s u}, R s u → ∀ d, R (s.setDisplay d) (u.setDisplay d)
  setDc : ∀ {s u}, R s u → ∀ b, R (s.setDc b) (u.setDc b)
  pokeByte : ∀ {s u}, R s u → ∀ a x, R (s.pokeByte a x) (u.pokeByte a x)
  record : ∀ {s u}, R s u → ∀ r, R { s with fault := r, dc := false } { u with fault := r, dc := false }

namespace Unseen

variable {R : State → State → Prop} (hR : Unseen R) {s u : State} (h : R s u)
include hR h

/-! #### The shared reads -/

theorem readByte (a : Nat) : u.readByte a = s.readByte a := by
  rw [State.readByte, hR.mem h, State.readByte]

theorem fetchWord : u.fetchWord = s.fetchWord := by
  simp only [State.fetchWord, State.readWord, hR.pc h, hR.readByte h]

theorem halted : u.halted = s.halted := halted_of_fault_eq (hR.fault h)

theorem fetchAddr : u.fetchAddr = s.fetchAddr := by
  rw [State.fetchAddr, hR.pc h, State.fetchAddr]

theorem firstKey : u.firstKey = s.firstKey := by
  rw [State.firstKey, hR.keys h, State.firstKey]

theorem dataAddr (k : Nat) : u.dataAddr k = s.dataAddr k := by
  rw [State.dataAddr, hR.i h, State.dataAddr]

theorem blockEnd (x : RegIdx) : u.blockEnd x = s.blockEnd x := by
  rw [State.blockEnd, hR.cfg h, hR.i h, State.blockEnd]

theorem writeDiscarded (a : Nat) : u.writeDiscarded a = s.writeDiscarded a := by
  rw [State.writeDiscarded, hR.params h, State.writeDiscarded]

theorem drawRows (x0 y0 : Nat) (rs : List Nat) (c : Display × Bool) :
    u.drawRows x0 y0 rs c = s.drawRows x0 y0 rs c := by
  induction rs generalizing c with
  | nil => rfl
  | cons r rs ih => simp only [State.drawRows, hR.readByte h, hR.dataAddr h, ih]

/-! #### The shared writes -/

theorem skipIf (c : Bool) : R (s.skipIf c) (u.skipIf c) := by
  cases c
  · exact h
  · simp only [State.skipIf, if_true, hR.pc h]
    exact hR.setPc h _

theorem raiseFlagIf (c : Bool) : R (s.raiseFlagIf c) (u.raiseFlagIf c) := by
  cases c
  · exact h
  · exact hR.setReg h VF 1

theorem setRegAndFlag (k : RegIdx) (x : Byte) (c : Bool) : R (s.setRegAndFlag k x c) (u.setRegAndFlag k x c) :=
  hR.setReg (hR.setReg h k x) VF (flagByte c)

theorem writeByte (a : Nat) (x : Byte) : R (s.writeByte a x) (u.writeByte a x) := by
  unfold State.writeByte
  rw [hR.writeDiscarded h]
  split
  · exact h
  · exact hR.pokeByte h a x

theorem storeRegs (base : Nat) {ks : List RegIdx} (hk : ∀ k ∈ ks, u.reg k = s.reg k) :
    R (s.storeRegs base ks) (u.storeRegs base ks) := by
  induction ks generalizing s u with
  | nil => exact h
  | cons k ks ih =>
    simp only [State.storeRegs, hk k List.mem_cons_self]
    exact ih (hR.writeByte h _ _) fun j hj => by simpa using hk j (List.mem_cons_of_mem k hj)

theorem loadRegs (base : Nat) (ks : List RegIdx) : R (s.loadRegs base ks) (u.loadRegs base ks) := by
  induction ks generalizing s u with
  | nil => exact h
  | cons k ks ih =>
    simp only [State.loadRegs, hR.readByte h]
    exact ih (hR.setReg h k _)

theorem execRet {t : State} (ht : execRet s = .next t) : ∃ w, execRet u = .next w ∧ R t w := by
  cases hs : s.stack with
  | nil =>
    rw [execRet_of_stack_nil hs] at ht
    cases ht
    refine ⟨_, execRet_of_stack_nil ((hR.stack h).trans hs), ?_⟩
    rw [hR.fetchAddr h]
    exact hR.record h _
  | cons top rest =>
    rw [execRet_of_stack_cons hs] at ht
    cases ht
    exact ⟨_, execRet_of_stack_cons ((hR.stack h).trans hs), hR.setPc (hR.dropTop h) top⟩

theorem execCall {nnn : Addr12} {t : State} (ht : execCall nnn s = .next t) :
    ∃ w, execCall nnn u = .next w ∧ R t w := by
  by_cases hfull : s.params.stackDepth = some s.stack.length
  · have hfull' : u.params.stackDepth = some u.stack.length := by rw [hR.params h, hR.stack h, hfull]
    rw [execCall_of_full hfull] at ht
    cases ht
    refine ⟨_, execCall_of_full hfull', ?_⟩
    rw [hR.fetchAddr h]
    exact hR.record h _
  · have hfull' : u.params.stackDepth ≠ some u.stack.length := by rwa [hR.params h, hR.stack h]
    rw [execCall_of_not_full hfull] at ht
    cases ht
    refine ⟨_, execCall_of_not_full hfull', ?_⟩
    rw [hR.pc h]
    exact hR.setPc (hR.push h _) _

theorem execWaitKey {x : RegIdx} {t : State} (ht : execWaitKey x s = .next t) :
    ∃ w, execWaitKey x u = .next w ∧ R t w := by
  cases hk : s.firstKey with
  | none =>
    rw [execWaitKey_of_firstKey_none hk] at ht
    cases ht
    refine ⟨_, execWaitKey_of_firstKey_none ((hR.firstKey h).trans hk), ?_⟩
    rw [hR.pc h]
    exact hR.setPc h _
  | some k =>
    rw [execWaitKey_of_firstKey_some hk] at ht
    cases ht
    exact ⟨_, execWaitKey_of_firstKey_some ((hR.firstKey h).trans hk), hR.setReg h x _⟩

/-! #### The operands an instruction reads -/

theorem keyDown {x : RegIdx} (hx : u.reg x = s.reg x) : u.keyDown x = s.keyDown x := by
  simp only [State.keyDown, hR.keys h, hx]

omit hR h in
theorem drawX {x : RegIdx} (hx : u.reg x = s.reg x) : u.drawX x = s.drawX x := by
  rw [State.drawX, hx, State.drawX]

omit hR h in
theorem drawY {y : RegIdx} (hy : u.reg y = s.reg y) : u.drawY y = s.drawY y := by
  rw [State.drawY, hy, State.drawY]

/-- A shift reads the register CFG selects (R140, R142). -/
theorem shiftSource {x y : RegIdx} (hx : ∀ k, (if s.cfg.shiftVy = true then k = y else k = x) → u.reg k = s.reg k) :
    u.shiftSource x y = s.shiftSource x y := by
  unfold State.shiftSource
  rw [hR.cfg h]
  split <;> exact hx _ (by simp [*])

/-- Jump-offset reads the register CFG selects (R108). -/
theorem jumpOperand {nnn : Addr12} (hx : ∀ k, regsRead s.cfg (.jumpOffset nnn) k → u.reg k = s.reg k) :
    u.reg (u.jumpReg nnn) = s.reg (s.jumpReg nnn) := by
  have hsel : u.jumpReg nnn = s.jumpReg nnn := by
    rw [State.jumpReg, hR.cfg h, State.jumpReg]
  have hlt := nnn.isLt
  rw [hsel, hx]
  simp only [regsRead, State.jumpReg_eq]
  split
  · exact Nat.mod_eq_of_lt (by omega)
  · rfl

/-! #### Every instruction, and the cycle -/

/-- An instruction keeps a difference that is not in the registers it reads; set-sound, if the difference survives a
write of ST; random, if it survives the draw and both draw one byte. -/
theorem exec {i : Instr} {t : State} (hreg : ∀ k, regsRead s.cfg i k → u.reg k = s.reg k)
    (hsound : ∀ x, i = .setSound x → R (s.setSound (s.reg x)) (u.setSound (s.reg x)))
    (hrandom : ∀ x nn, i = .random x nn → u.randomByte = s.randomByte ∧ R s.consumeRandom u.consumeRandom)
    (ht : Machine.exec i s = .next t) : ∃ w, Machine.exec i u = .next w ∧ R t w := by
  cases i with
  | ret => exact hR.execRet h ht
  | call => exact hR.execCall h ht
  | waitKey => exact hR.execWaitKey h ht
  | clear => cases ht; exact ⟨_, rfl, hR.setDc (hR.setDisplay h _) _⟩
  | jump => cases ht; exact ⟨_, rfl, hR.setPc h _⟩
  | jumpOffset nnn => cases ht; exact ⟨_, rfl, hR.jumpOperand h hreg ▸ hR.setPc h _⟩
  | setImm => cases ht; exact ⟨_, rfl, hR.setReg h _ _⟩
  | getDelay => cases ht; exact ⟨_, rfl, hR.dt h ▸ hR.setReg h _ _⟩
  | addImm x | set x y =>
    cases ht
    refine ⟨_, rfl, ?_⟩
    rw [hreg _ rfl]
    exact hR.setReg h _ _
  | skipEqImm x | skipNeqImm x =>
    cases ht
    refine ⟨_, rfl, ?_⟩
    rw [hreg x rfl]
    exact hR.skipIf h _
  | skipEq x y | skipNeq x y =>
    cases ht
    refine ⟨_, rfl, ?_⟩
    rw [hreg x (.inl rfl), hreg y (.inr rfl)]
    exact hR.skipIf h _
  | skipIfKey x | skipIfNotKey x =>
    cases ht
    refine ⟨_, rfl, ?_⟩
    rw [hR.keyDown h (hreg x rfl)]
    exact hR.skipIf h _
  | or x y | and x y | xor x y =>
    cases ht
    refine ⟨_, rfl, ?_⟩
    rw [hreg x (.inl rfl), hreg y (.inr rfl)]
    exact hR.setReg h _ _
  | add x y | sub x y | subYx x y =>
    cases ht
    refine ⟨_, rfl, ?_⟩
    rw [hreg x (.inl rfl), hreg y (.inr rfl)]
    exact hR.setRegAndFlag h _ _ _
  | shiftRight | shiftLeft => cases ht; exact ⟨_, rfl, hR.shiftSource h hreg ▸ hR.setReg h _ _⟩
  | setIndex => cases ht; exact ⟨_, rfl, hR.setIndex h _⟩
  | fontChar x =>
    cases ht
    refine ⟨_, rfl, ?_⟩
    rw [hreg x rfl]
    exact hR.setIndex h _
  | addIndex x =>
    cases ht
    refine ⟨_, rfl, ?_⟩
    rw [hR.i h, hR.params h, hreg x rfl]
    exact hR.raiseFlagIf (hR.setIndex h _) _
  | random x nn =>
    obtain ⟨hbyte, hdrawn⟩ := hrandom x nn rfl
    cases ht
    exact ⟨_, rfl, hbyte ▸ hR.setReg hdrawn _ _⟩
  | setDelay x =>
    cases ht
    refine ⟨_, rfl, ?_⟩
    rw [hreg x rfl]
    exact hR.setDelay h _
  | setSound x =>
    cases ht
    refine ⟨_, rfl, ?_⟩
    rw [hreg x rfl]
    exact hsound x rfl
  | draw x y n =>
    cases ht
    refine ⟨_, rfl, ?_⟩
    rw [drawX (hreg x (.inl rfl)), drawY (hreg y (.inr rfl)), hR.drawRows h, hR.display h]
    exact hR.setDc (hR.setReg (hR.setDisplay h _) _ _) _
  | bcd x =>
    cases ht
    refine ⟨_, rfl, ?_⟩
    rw [hreg x rfl, hR.dataAddr h, hR.dataAddr h, hR.dataAddr h]
    exact hR.writeByte (hR.writeByte (hR.writeByte h _ _) _ _) _ _
  | store x =>
    cases ht
    refine ⟨_, rfl, ?_⟩
    rw [hR.dataAddr h, hR.blockEnd h]
    exact hR.setIndex (hR.storeRegs h _ fun k hk => hreg k (mem_regsUpTo.mp hk)) _
  | load x =>
    cases ht
    refine ⟨_, rfl, ?_⟩
    rw [hR.dataAddr h, hR.blockEnd h]
    exact hR.setIndex (hR.loadRegs h _ _) _

theorem afterFetch : R s.afterFetch u.afterFetch := by
  rw [State.afterFetch, State.afterFetch, hR.pc h]
  exact hR.setDc (hR.setPc h _) _

/-- A cycle keeps a difference that is not in the registers, with the same two provisos. -/
theorem step {t : State} (hreg : ∀ k, u.reg k = s.reg k)
    (hsound : ∀ x, s.halted = false → decode s.fetchWord = .ok (.setSound x) →
      ∀ {s u}, R s u → ∀ b, R (s.setSound b) (u.setSound b))
    (hrandom : ∀ x nn, s.halted = false → decode s.fetchWord = .ok (.random x nn) →
      ∀ {s u}, R s u → u.randomByte = s.randomByte ∧ R s.consumeRandom u.consumeRandom)
    (ht : Machine.step s = .next t) : ∃ w, Machine.step u = .next w ∧ R t w := by
  have hhalt := hR.halted h
  have hword := hR.fetchWord h
  obtain ⟨hs, rfl⟩ | ⟨hs, ⟨e, he⟩, rfl⟩ | ⟨hs, i, hd, hx⟩ := step_cases ht
  · exact ⟨_, step_of_halted (hhalt.trans hs), hR.setDc h false⟩
  · refine ⟨_, step_of_decode_error (hhalt.trans hs) (hword ▸ he), ?_⟩
    rw [hword, hR.pc h]
    exact hR.record (hR.afterFetch h) _
  · rw [step_of_decode_ok (hhalt.trans hs) (hword ▸ hd)]
    refine hR.exec (hR.afterFetch h) (fun k _ => hreg k) (fun x hi => ?_) (fun x nn hi => ?_) hx
    · exact hsound x hs (hi ▸ hd) (hR.afterFetch h) _
    · exact hrandom x nn hs (hi ▸ hd) (hR.afterFetch h)

end Unseen

/-! ### A register that is not read (R22) -/

theorem setReg_setReg_same (s : State) (k : RegIdx) (b c : Byte) : (s.setReg k b).setReg k c = s.setReg k c := by
  simp [State.setReg]

theorem setReg_comm {j k : RegIdx} (hjk : j ≠ k) (s : State) (b c : Byte) :
    (s.setReg j b).setReg k c = (s.setReg k c).setReg j b := by
  have hval : j.val ≠ k.val := fun e => hjk (Fin.ext e)
  simp only [State.setReg, Vector.set_comm _ _ hval]

/-- Two runs that differ in one register at most, of which the second began with `b` in it where the first had `a`: it
has been written alike in both, or kept in both. -/
def DiffersAt (k : RegIdx) (a b : Byte) (s u : State) : Prop := u = s ∨ (s.reg k = a ∧ u = s.setReg k b)

namespace DiffersAt

variable {k : RegIdx} {a b : Byte}

/-- A change of both states that does not touch the register keeps the difference. -/
theorem map {s u : State} (h : DiffersAt k a b s u) {f : State → State} (hreg : ∀ s, (f s).reg k = s.reg k)
    (hcomm : ∀ s, f (s.setReg k b) = (f s).setReg k b) : DiffersAt k a b (f s) (f u) := by
  obtain rfl | ⟨ha, rfl⟩ := h
  · exact .inl rfl
  · exact .inr ⟨(hreg s).trans ha, hcomm s⟩

/-- A part of the state that is no register is the same. -/
theorem part {s u : State} (h : DiffersAt k a b s u) {α : Type} {g : State → α}
    (hg : ∀ s, g (s.setReg k b) = g s) : g u = g s := by
  obtain rfl | ⟨-, rfl⟩ := h
  · rfl
  · exact hg s

/-- A write of one byte to both: to the register itself, it ends the difference. -/
theorem setReg {s u : State} (h : DiffersAt k a b s u) (j : RegIdx) (x : Byte) :
    DiffersAt k a b (s.setReg j x) (u.setReg j x) := by
  by_cases hj : k = j
  · subst hj
    obtain rfl | ⟨-, rfl⟩ := h
    · exact .inl rfl
    · exact .inl (setReg_setReg_same s k b x)
  · exact h.map (f := (·.setReg j x)) (fun s => State.setReg_reg_other hj s x) fun s => setReg_comm hj s b x

/-- Every shared operation keeps the difference: a register write as above, the others leave the register alone. -/
theorem unseen (k : RegIdx) (a b : Byte) : Unseen (DiffersAt k a b) where
  i h := h.part fun _ => rfl
  pc h := h.part fun _ => rfl
  stack h := h.part fun _ => rfl
  dt h := h.part fun _ => rfl
  mem h := h.part fun _ => rfl
  display h := h.part fun _ => rfl
  keys h := h.part fun _ => rfl
  cfg h := h.part fun _ => rfl
  fault h := h.part fun _ => rfl
  params h := h.part fun _ => rfl
  setReg h := h.setReg
  setIndex h x := h.map (f := (·.setIndex x)) (fun _ => rfl) fun _ => rfl
  setPc h x := h.map (f := (·.setPc x)) (fun _ => rfl) fun _ => rfl
  push h x := h.map (f := (·.push x)) (fun _ => rfl) fun _ => rfl
  dropTop h := h.map (f := State.dropTop) (fun _ => rfl) fun _ => rfl
  setDelay h x := h.map (f := (·.setDelay x)) (fun _ => rfl) fun _ => rfl
  setDisplay h d := h.map (f := (·.setDisplay d)) (fun _ => rfl) fun _ => rfl
  setDc h b := h.map (f := (·.setDc b)) (fun _ => rfl) fun _ => rfl
  pokeByte h a x := h.map (f := (·.pokeByte a x)) (fun _ => rfl) fun _ => rfl
  record h r := h.map (f := fun s => { s with fault := r, dc := false }) (fun _ => rfl) fun _ => rfl

/-- Set-sound and random keep the difference too. -/
theorem setSound {s u : State} (h : DiffersAt k a b s u) (x : Byte) :
    DiffersAt k a b (s.setSound x) (u.setSound x) :=
  h.map (f := (·.setSound x)) (fun _ => rfl) fun _ => rfl

theorem consumeRandom {s u : State} (h : DiffersAt k a b s u) :
    DiffersAt k a b s.consumeRandom u.consumeRandom := by
  refine h.map (fun s => s.consumeRandom_reg k) fun s => ?_
  cases hr : s.rnd <;> simp [State.consumeRandom, hr, State.setReg]

/-- Nothing but the register differs. -/
theorem frame {s u : State} (h : DiffersAt k a b s u) : Frame (fun j => j = k) [] s u := by
  obtain rfl | ⟨-, rfl⟩ := h
  · exact (Frame.refl _).mono (fun _ => False.elim) (List.Subset.refl _)
  · exact setReg_frame s k b

/-- The register is written alike or kept in both. -/
theorem reg {s u : State} (h : DiffersAt k a b s u) : u.reg k = s.reg k ∨ (u.reg k = b ∧ s.reg k = a) := by
  obtain rfl | ⟨ha, rfl⟩ := h
  · exact .inl rfl
  · exact .inr ⟨State.setReg_reg_same s k b, ha⟩

end DiffersAt

/-- Settles O16: a register that is not read is a difference no operation of the instruction sees. -/
theorem instructionsReadOnlyTheirRegisters : Obligations.InstructionsReadOnlyTheirRegisters := by
  intro i s k b hk
  have h : DiffersAt k (s.reg k) b s (s.setReg k b) := .inr ⟨rfl, rfl⟩
  obtain ⟨t, ht⟩ := exec_next i s
  have hread (j : RegIdx) (hj : regsRead s.cfg i j) : (s.setReg k b).reg j = s.reg j := by
    have hjk : j ≠ k := fun e => hk (e ▸ hj)
    exact State.setReg_reg_other hjk s b
  obtain ⟨u, hu, htu⟩ := (DiffersAt.unseen k (s.reg k) b).exec h hread (fun x _ => h.setSound _)
    (fun _ _ _ => ⟨rfl, h.consumeRandom⟩) ht
  exact ⟨t, u, ht, hu, htu.frame, htu.reg⟩

/-! ### The sound timer (R30) -/

/-- Two states that differ in ST, which is `b` in the second. -/
def SoundIs (b : Byte) (s u : State) : Prop := u = s.setSound b

/-- No shared operation reads or writes ST, so each law holds by computation. -/
theorem SoundIs.unseen (b : Byte) : Unseen (SoundIs b) := by
  constructor <;> (rintro s _ rfl; intros; rfl)

theorem SoundIs.consumeRandom {b : Byte} {s u : State} (h : SoundIs b s u) :
    SoundIs b s.consumeRandom u.consumeRandom := by
  subst h
  cases hr : s.rnd <;> simp [SoundIs, State.consumeRandom, hr, State.setSound]

/-- Settles O19: set-sound overwrites the difference; to every other cycle it is unseen. -/
theorem noInstructionReadsTheSoundTimer : Obligations.NoInstructionReadsTheSoundTimer := by
  intro s t b ht
  split
  next hsound =>
    obtain ⟨hs, x, hd⟩ := hsound
    rw [step_of_decode_ok hs hd] at ht
    cases ht
    exact step_of_decode_ok (s := s.setSound b) hs hd
  next hsound =>
    obtain ⟨u, hu, rfl⟩ := (SoundIs.unseen b).step rfl (fun _ => rfl)
      (fun x hs hd => absurd ⟨hs, x, hd⟩ hsound) (fun _ _ _ _ _ _ h => ⟨by cases h; rfl, h.consumeRandom⟩) ht
    exact hu

/-! ### The random byte (R40) -/

/-- Two states that differ in the byte a STEP names. -/
def ByteIs (r : Option Byte) (s u : State) : Prop := u = { s with rnd := r }

/-- No shared operation but the draw itself reads or writes the byte, so each law holds by computation. -/
theorem ByteIs.unseen (r : Option Byte) : Unseen (ByteIs r) := by
  constructor <;> (rintro s _ rfl; intros; rfl)

/-- The cycle of a random with a byte named (R143). -/
theorem step_random {s : State} {x : RegIdx} {nn b : Byte} (hs : s.halted = false)
    (hd : decode s.fetchWord = .ok (.random x nn)) :
    step { s with rnd := some b } = .next ({ s.afterFetch with rnd := none }.setReg x (nn &&& b)) :=
  step_of_decode_ok (s := { s with rnd := some b }) hs hd

/-- Settles O56: the byte is unseen by every cycle but a random's, and is cleared after the cycle. -/
theorem stepByteReachesRandomAlone : Obligations.StepByteReachesRandomAlone := by
  intro b c s
  obtain ⟨t, ht⟩ := step_next { s with rnd := some b }
  obtain ⟨u, hu⟩ := step_next { s with rnd := some c }
  refine ⟨_, _, stepWith_of_step ht, stepWith_of_step hu, fun hnot => ?_, fun x nn hs hd => ?_⟩
  · have hrandom (x : RegIdx) (nn : Byte) (hs : s.halted = false) : decode s.fetchWord ≠ .ok (.random x nn) :=
      hnot.elim (fun hh => by simp [hs] at hh) (fun hn => hn x nn)
    obtain ⟨w, hw, rfl⟩ := (ByteIs.unseen (some c)).step (s := { s with rnd := some b })
      (u := { s with rnd := some c }) rfl (fun _ => rfl) (fun _ _ _ _ _ h _ => by cases h; rfl)
      (fun x nn hs hd => absurd hd (hrandom x nn hs)) ht
    cases hu.symm.trans hw
    rfl
  · cases ht.symm.trans (step_random hs hd)
    cases hu.symm.trans (step_random hs hd)
    refine ⟨State.setReg_reg_same _ x _, State.setReg_reg_same _ x _, ?_⟩
    have hover := setReg_setReg_same { s.afterFetch with rnd := none } x (nn &&& b) (nn &&& c)
    exact hover ▸ setReg_frame _ x (nn &&& c)

end Sys2Proof.Machine

/-! PROOFS. Memory: its canonical form (log entry 7), the two-byte read (R52), the font protection (R53), the stores of
bcd and store (R174, R175) and what is read back after them. -/

namespace Sys2Proof.Machine

/-! ### The canonical form -/

/-- The first cell listed is not what an unlisted address reads as, so a memory that reads alike lists it too. -/
theorem Memory.head_le {a b : Nat} {x y : Byte} {m m' : Memory} (hm : Memory.wf ((a, x) :: m) = true)
    (hm' : Memory.wf ((b, y) :: m') = true)
    (h : ∀ c, c < 4096 → Memory.cell ((a, x) :: m) c = Memory.cell ((b, y) :: m') c) : b ≤ a := by
  obtain ⟨ha, hx, -, -⟩ := Memory.wf_cons.mp hm
  obtain ⟨-, -, hb, -⟩ := Memory.wf_cons.mp hm'
  by_contra hlt
  have hbelow : ∀ c ∈ (b, y) :: m', a < c.1 := by
    simp only [List.mem_cons, forall_eq_or_imp]
    exact ⟨by omega, fun c hc => by have := hb c hc; omega⟩
  have hcell := h a ha
  rw [Memory.cell_of_below hbelow] at hcell
  simp [Memory.cell, hx] at hcell

/-- A canonical memory that lists a cell does not read like the empty list. -/
theorem Memory.exists_cell_ne_nil {a : Nat} {x : Byte} {m : Memory} (hm : Memory.wf ((a, x) :: m) = true) :
    ∃ c, c < 4096 ∧ Memory.cell ((a, x) :: m) c ≠ Memory.cell [] c := by
  obtain ⟨ha, hx, -, -⟩ := Memory.wf_cons.mp hm
  exact ⟨a, ha, by simpa [Memory.cell] using hx⟩

/-- Canonical memories that read alike have the same first cell, and their rests read alike. -/
theorem Memory.ext_cell {m m' : Memory} (hm : m.wf = true) (hm' : m'.wf = true)
    (h : ∀ c, c < 4096 → m.cell c = m'.cell c) : m = m' := by
  induction m generalizing m' with
  | nil =>
    cases m' with
    | nil => rfl
    | cons d m' =>
      obtain ⟨c, hc, hne⟩ := Memory.exists_cell_ne_nil hm'
      exact absurd (h c hc).symm hne
  | cons d m ih =>
    cases m' with
    | nil =>
      obtain ⟨c, hc, hne⟩ := Memory.exists_cell_ne_nil hm
      exact absurd (h c hc) hne
    | cons d' m' =>
      obtain ⟨a, x⟩ := d
      obtain ⟨b, y⟩ := d'
      obtain rfl : a = b :=
        Nat.le_antisymm (Memory.head_le hm' hm fun c hc => (h c hc).symm) (Memory.head_le hm hm' h)
      obtain ⟨ha, -, hlow, hwf⟩ := Memory.wf_cons.mp hm
      obtain ⟨-, -, hlow', hwf'⟩ := Memory.wf_cons.mp hm'
      obtain rfl : x = y := by simpa [Memory.cell] using h a ha
      refine congrArg _ (ih hwf hwf' fun c hc => ?_)
      by_cases hca : c = a
      · rw [hca, Memory.cell_of_below hlow, Memory.cell_of_below hlow']
      · simpa [Memory.cell, hca] using h c hc

/-- Settles O22: by the first cells, one after another. -/
theorem memoriesThatReadAlikeAreEqual : Obligations.MemoriesThatReadAlikeAreEqual :=
  fun _ _ => Memory.ext_cell

/-! ### Reads (R52) -/

theorem State.readByte_mod (s : State) (addr : Nat) : s.readByte (addr % 4096) = s.readByte addr :=
  congrArg s.mem.cell (portAddr_portAddr addr)

theorem State.readWord_toNat (s : State) (addr : Nat) :
    (s.readWord addr).toNat = (s.readByte addr).toNat * 256 + (s.readByte (addr + 1)).toNat :=
  wordOfBytes_toNat _ _

/-- Settles O7: each byte by its reduced address, the word by its two bytes. -/
theorem fetchIsBigEndianAndWraps : Obligations.FetchIsBigEndianAndWraps := by
  intro s addr
  rw [State.readByte_mod, State.readByte_mod]
  exact ⟨rfl, s.readWord_toNat addr, rfl⟩

/-! ### The font protection (R53) -/

/-- An address of the font region on a core that protects it, read through the 12-bit port. -/
def ProtectedAddr (s : State) (a : Nat) : Prop := s.params.fontWriteProtect = true ∧ inFontRegion (portAddr a) = true

/-- The parameters and every protected byte are kept. -/
def KeepsProtected (s t : State) : Prop :=
  t.params = s.params ∧ ∀ a, ProtectedAddr s a → t.readByte a = s.readByte a

theorem KeepsProtected.trans {s t u : State} (h : KeepsProtected s t) (h' : KeepsProtected t u) :
    KeepsProtected s u := by
  obtain ⟨hp, hb⟩ := h
  obtain ⟨hp', hb'⟩ := h'
  exact ⟨hp'.trans hp, fun a ha => (hb' a (by rwa [ProtectedAddr, hp])).trans (hb a ha)⟩

/-- MemWrite keeps a protected byte: a write to it is discarded, any other goes elsewhere. -/
theorem writeByte_keepsProtected (s : State) (b : Nat) (x : Byte) : KeepsProtected s (s.writeByte b x) := by
  refine ⟨State.writeByte_params s b x, fun a ha => ?_⟩
  by_cases hab : portAddr a = portAddr b
  · have hdisc : s.writeDiscarded b = true := by simp [State.writeDiscarded, ha.1, ← hab, ha.2]
    rw [State.writeByte, if_pos hdisc]
  · exact State.writeByte_readByte_other hab s x

theorem storeRegs_keepsProtected (s : State) (base : Nat) (ks : List RegIdx) :
    KeepsProtected s (s.storeRegs base ks) := by
  induction ks generalizing s with
  | nil => exact ⟨rfl, fun _ _ => rfl⟩
  | cons k ks ih => exact (writeByte_keepsProtected s _ _).trans (ih _)

/-- No instruction changes a protected byte: bcd and store by their writes, every other one by its frame. -/
theorem exec_keepsProtected {i : Instr} {s t : State} (h : exec i s = .next t) : KeepsProtected s t := by
  by_cases hm : Part.mem ∈ partsWritten i
  · cases i with
    | bcd =>
      cases h
      exact ((writeByte_keepsProtected s _ _).trans (writeByte_keepsProtected _ _ _)).trans
        (writeByte_keepsProtected _ _ _)
    | store =>
      cases h
      exact storeRegs_keepsProtected s _ _
    | _ => simp [partsWritten] at hm
  · exact ⟨(exec_keeps h).1, fun a _ => (exec_frame h).2 .mem hm a⟩

theorem step_keepsProtected {s t : State} (h : step s = .next t) : KeepsProtected s t := by
  obtain ⟨-, rfl⟩ | ⟨-, -, rfl⟩ | ⟨-, i, -, hx⟩ := step_cases h
  · exact ⟨rfl, fun _ _ => rfl⟩
  · exact ⟨rfl, fun _ _ => rfl⟩
  · exact exec_keepsProtected (s := s.afterFetch) hx

/-- No host action but RESET changes a protected byte (R66). -/
theorem hostAct_keepsProtected {a : HostAction} {s t : State} (ha : notReset a) (h : hostAct a s = .next t) :
    KeepsProtected s t := by
  cases a with
  | reset => exact ha.elim
  | step r =>
    obtain ⟨u, hu, rfl⟩ := step_of_hostAct_step h
    exact step_keepsProtected (s := { s with rnd := some r }) (t := u) hu
  | _ =>
    cases h
    exact ⟨rfl, fun _ _ => rfl⟩

/-- Settles O21: the run keeps the protected bytes, as each of its actions does. -/
theorem protectedFontNeverChanges : Obligations.ProtectedFontNeverChanges := by
  intro acts s t _ hp hn h a hlow hhigh
  have hkeep : KeepsProtected s t :=
    hostRun_keeps (KeepsProtected s) (fun b hb _ _ hu hw => hu.trans (hostAct_keepsProtected (hn b hb) hw))
      ⟨rfl, fun _ _ => rfl⟩ h
  have hport : portAddr a = a := portAddr_of_lt (by omega)
  exact hkeep.2 a ⟨hp, hport.symm ▸ inFontRegion_iff.mpr ⟨hlow, hhigh⟩⟩

/-! ### Stores (R174, R175) -/

theorem discarded_iff {s : State} {a : Nat} : Discarded s a ↔ s.writeDiscarded a = true :=
  State.writeDiscarded_iff.symm

/-- Two addresses of one block name two cells (R51). -/
theorem portAddr_add_ne (a : Nat) {j k : Nat} (hj : j < 4096) (hk : k < 4096) (h : j ≠ k) :
    portAddr (a + j) ≠ portAddr (a + k) := by
  simp only [portAddr]
  omega

/-- What is read back from the address just written (R53). -/
theorem State.writeByte_readByte_same {s : State} (hm : s.mem.wf = true) (a : Nat) (x : Byte) :
    (s.writeByte a x).readByte a = if s.writeDiscarded a = true then s.readByte a else x := by
  rw [State.writeByte_readByte hm]
  cases s.writeDiscarded a <;> simp

/-- The three bytes bcd writes, hundreds first, each where its write is not discarded (R174). -/
theorem execBcd_readByte_inside {x : RegIdx} {s t : State} (hm : s.mem.wf = true) (h : execBcd x s = .next t) :
    t.readByte (s.dataAddr 0) = (if s.writeDiscarded (s.dataAddr 0) = true then s.readByte (s.dataAddr 0)
      else (bcdDigits (s.reg x)).1) ∧
    t.readByte (s.dataAddr 1) = (if s.writeDiscarded (s.dataAddr 1) = true then s.readByte (s.dataAddr 1)
      else (bcdDigits (s.reg x)).2.1) ∧
    t.readByte (s.dataAddr 2) = (if s.writeDiscarded (s.dataAddr 2) = true then s.readByte (s.dataAddr 2)
      else (bcdDigits (s.reg x)).2.2) := by
  cases h
  have hne (j k : Nat) (hjk : j < 3 ∧ k < 3 ∧ j ≠ k := by decide) :
      portAddr (s.dataAddr j) ≠ portAddr (s.dataAddr k) :=
    portAddr_add_ne s.i.toNat (by omega) (by omega) hjk.2.2
  have hm0 := State.writeByte_wf hm (s.dataAddr 0) (bcdDigits (s.reg x)).1
  have hm1 := State.writeByte_wf hm0 (s.dataAddr 1) (bcdDigits (s.reg x)).2.1
  refine ⟨?_, ?_, ?_⟩
  · rw [State.writeByte_readByte_other (hne 0 2), State.writeByte_readByte_other (hne 0 1),
      State.writeByte_readByte_same hm]
  · rw [State.writeByte_readByte_other (hne 1 2), State.writeByte_readByte_same hm0,
      State.writeByte_writeDiscarded, State.writeByte_readByte_other (hne 1 0)]
  · rw [State.writeByte_readByte_same hm1, State.writeByte_writeDiscarded, State.writeByte_writeDiscarded,
      State.writeByte_readByte_other (hne 2 1), State.writeByte_readByte_other (hne 2 0)]

/-- The digits of a byte as numbers. -/
theorem bcdDigits_toNat (b : Byte) :
    (bcdDigits b).1.toNat = b.toNat / 100 ∧ (bcdDigits b).2.1.toNat = b.toNat / 10 % 10 ∧
      (bcdDigits b).2.2.toNat = b.toNat % 10 := by
  have hb := b.isLt
  simp only [bcdDigits, BitVec.toNat_ofNat]
  omega

/-- Settles O40: the three bytes by `execBcd_readByte_inside`, all others by `execBcd_readByte`, the rest by R24's
frame. -/
theorem bcdStoresTheDigits : Obligations.BcdStoresTheDigits := by
  intro x s hm
  obtain ⟨h0, h1, h2⟩ := execBcd_readByte_inside (x := x) hm rfl
  obtain ⟨d0, d1, d2⟩ := bcdDigits_toNat (s.reg x)
  refine ⟨encodes_of_layoutXNN_F 0x33 rfl, _, rfl, exec_frame (i := .bcd x) rfl, fun k hk => ⟨rfl, fun hd => ?_⟩,
    fun hd => ?_, fun hd => ?_, fun hd => ?_, fun a ha => execBcd_readByte rfl ha⟩
  · rw [discarded_iff] at hd
    interval_cases k
    · exact h0.trans (if_pos hd)
    · exact h1.trans (if_pos hd)
    · exact h2.trans (if_pos hd)
  · rw [h0, if_neg (mt discarded_iff.mpr hd), d0]
  · rw [h1, if_neg (mt discarded_iff.mpr hd), d1]
  · rw [h2, if_neg (mt discarded_iff.mpr hd), d2]

section
variable {x k : RegIdx} {s t : State}

/-- A byte of the block store writes, where its write is not discarded (R175). -/
theorem execStore_readByte_of_not_discarded (hm : s.mem.wf = true) (h : execStore x s = .next t) (hk : k.val ≤ x.val)
    (hd : ¬ Discarded s (s.dataAddr k.val)) : t.readByte (s.dataAddr k.val) = s.reg k := by
  cases h
  exact (State.storeRegs_readByte_inside hm (s.dataAddr 0) (regsUpTo x) (regsUpTo_nodup x) (mem_regsUpTo.mpr hk)).trans
    (if_neg (mt discarded_iff.mpr hd))

theorem execStore_readByte_of_discarded (hm : s.mem.wf = true) (h : execStore x s = .next t) (hk : k.val ≤ x.val)
    (hd : Discarded s (s.dataAddr k.val)) : t.readByte (s.dataAddr k.val) = s.readByte (s.dataAddr k.val) := by
  cases h
  exact (State.storeRegs_readByte_inside hm (s.dataAddr 0) (regsUpTo x) (regsUpTo_nodup x) (mem_regsUpTo.mpr hk)).trans
    (if_pos (discarded_iff.mp hd))

end

/-- An address outside the block is outside the numbers of its registers (R175). -/
theorem not_sameCell_of_regs {x : RegIdx} {s : State} {a : Nat}
    (h : ∀ k : RegIdx, k.val ≤ x.val → ¬ SameCell a (s.dataAddr k.val)) {k : Nat} (hk : k ≤ x.val) :
    ¬ SameCell a (s.dataAddr k) := h ⟨k, by omega⟩ hk

/-- Settles O41: the block by the two lemmas on its bytes, all others by `execStore_readByte`, I by
`State.blockEnd_toNat`, the rest by R24's frame. -/
theorem storeWritesTheBlock : Obligations.StoreWritesTheBlock := fun x s hm =>
  ⟨encodes_of_layoutXNN_F 0x55 rfl, _, rfl, exec_frame (i := .store x) rfl,
    fun _ hk => ⟨rfl, execStore_readByte_of_not_discarded hm rfl hk, execStore_readByte_of_discarded hm rfl hk⟩,
    fun _ ha => execStore_readByte rfl fun _ hk => not_sameCell_of_regs ha hk, s.blockEnd_toNat x⟩

/-- Settles O43: the load reads the bytes the store has written, whatever the registers hold. -/
theorem loadAfterStoreRecoversTheRegisters : Obligations.LoadAfterStoreRecoversTheRegisters := by
  intro x s v hm hd
  obtain ⟨t, ht⟩ := exec_next (.store x) s
  refine ⟨t, _, ht, rfl, fun k hk => ?_⟩
  rw [loadBlock_reg hk]
  exact execStore_readByte_of_not_discarded (t := t) hm ht hk (hd k hk)

/-- Settles O44: the fetched word is the two stored bytes, the first counting 256. -/
theorem fetchSeesStoredBytes : Obligations.FetchSeesStoredBytes := by
  intro x s hm hx hd0 hd1
  obtain ⟨t, ht⟩ := exec_next (.store x) s
  refine ⟨t, ht, fun u hmem hpc => ?_⟩
  have hread (a : Nat) : u.readByte a = t.readByte a := by rw [State.readByte, hmem, State.readByte]
  have h0 : t.readByte s.i.toNat = s.reg 0 := execStore_readByte_of_not_discarded (k := 0) hm ht (Nat.zero_le _) hd0
  have h1 : t.readByte (s.i.toNat + 1) = s.reg 1 := execStore_readByte_of_not_discarded (k := 1) hm ht hx hd1
  rw [State.fetchWord, hpc, State.readWord_toNat, hread, hread, h0, h1]

end Sys2Proof.Machine

/-! PROOFS. The instructions that write VF (R138, R139, R141, R172), random (R143), call (R103), the key skips and
set-sound (R194, R195, R199), a draw undone by itself (R193), and the host's actions (R230, R235) with RESET (R250). -/

namespace Sys2Proof.Machine

/-! ### Call (R103) -/

/-- A call that does not fault touches PC and S alone. -/
theorem push_setPc_frame (s : State) (x y : Word) : Frame noReg [.pc, .stack] s ((s.push x).setPc y) :=
  ((push_frame s x).trans (setPc_frame _ y)).mono (fun _ h => h.elim id id) (by simp)

/-- The number of call's word. -/
theorem encode_call_toNat (nnn : Addr12) : (encode (.call nnn)).toNat = 0x2000 + nnn.toNat :=
  layoutNNN_toNat 0x2 nnn

/-- Settles O25: the two arms of call, by whether S is full at its bound. -/
theorem callPushesTheReturnAddress : Obligations.CallPushesTheReturnAddress := by
  intro nnn s a hpc
  refine ⟨encodes_of_encode_toNat (encode_call_toNat nnn), fun h => ?_, fun h => ?_⟩
  · exact ⟨_, execCall_of_not_full h, by simp [hpc], zext16_toNat nnn, push_setPc_frame s _ _⟩
  · have hword : encode (.call nnn) = BitVec.ofNat 16 (0x2000 + nnn.toNat) := by
      rw [← encode_call_toNat, BitVec.ofNat_toNat, BitVec.setWidth_eq]
    have haddr : s.fetchAddr = a := by rw [State.fetchAddr, hpc, BitVec.add_sub_cancel]
    exact ⟨_, execCall_of_full h, by rw [hword, haddr], rfl, raiseFault_frame (raiseFault_eq _ _ _ s)⟩

/-- Settles O26: the return pops what the call pushed. -/
theorem returnComesBackFromCall : Obligations.ReturnComesBackFromCall := by
  refine fun nnn s h => ⟨_, execCall_of_not_full h, fun u hu => ?_⟩
  have htop : u.stack = s.pc :: s.stack := hu
  exact ⟨_, execRet_of_stack_cons htop, rfl, by simp [htop]⟩

/-! ### The instructions that write VF (R138, R139, R141, R172) -/

section
variable (s : State) (x : RegIdx) (b : Byte) (c : Bool)

/-- The destination holds the result unless it is VF (R131). -/
theorem setRegAndFlag_reg_dest (hx : x ≠ VF) : (s.setRegAndFlag x b c).reg x = b := by
  rw [State.setRegAndFlag_reg, if_neg hx, if_pos rfl]

/-- VF holds the flag, also when it is the destination (R131). -/
theorem setRegAndFlag_reg_vf : ((s.setRegAndFlag x b c).reg VF).toNat = if c = true then 1 else 0 := by
  rw [State.setRegAndFlag_reg, if_pos rfl, flagByte_toNat]

end

/-- Settles O33: the sum of two bytes is modulo 256, and the flag is that it exceeds 255. -/
theorem addSetsTheCarry : Obligations.AddSetsTheCarry := by
  refine fun x y s => ⟨encodes_of_layoutXYN_8 0x4 rfl, _, rfl, fun hx => ?_, ?_, setRegAndFlag_frame s x _ _⟩
  · rw [setRegAndFlag_reg_dest s x _ _ hx, BitVec.toNat_add]
  · rw [setRegAndFlag_reg_vf]
    simp [addCarry]

/-- The difference of two bytes is the integers' modulo 256. -/
theorem byte_sub_toNat (a b : Byte) : ((a - b).toNat : Int) = (a.toNat - b.toNat : Int) % 256 := by
  have ha := a.isLt
  have hb := b.isLt
  rw [BitVec.toNat_sub]
  omega

/-- A write of a difference and of the strict flag, as sub and sub-yx make it with their operands in either order (R139,
R141). -/
theorem exec_sub_spec {i : Instr} {x : RegIdx} {a b : Byte} {s : State}
    (h : exec i s = .next (s.setRegAndFlag x (a - b) (strictlyGreater a b))) :
    ∃ t, exec i s = .next t ∧ (x ≠ VF → ((t.reg x).toNat : Int) = (a.toNat - b.toNat : Int) % 256) ∧
      (t.reg VF).toNat = (if a.toNat > b.toNat then 1 else 0) ∧ Frame (fun k => k = x ∨ k = VF) [] s t := by
  refine ⟨_, h, fun hx => ?_, ?_, setRegAndFlag_frame s x _ _⟩
  · rw [setRegAndFlag_reg_dest s x _ _ hx, byte_sub_toNat]
  · rw [setRegAndFlag_reg_vf]
    simp [strictlyGreater]

/-- Settles O34: both are the write of a difference and its strict flag, the operands in either order. -/
theorem subtractionsSetTheStrictFlag : Obligations.SubtractionsSetTheStrictFlag := fun x y _ =>
  ⟨encodes_of_layoutXYN_8 0x5 rfl, encodes_of_layoutXYN_8 0x7 rfl, exec_sub_spec (i := .sub x y) rfl,
    exec_sub_spec (i := .subYx x y) rfl⟩

/-- The conditions of add-index, as numbers (R172). -/
theorem indexOverflow_range12 (i : Word) (x : Byte) :
    indexOverflow .range12 i x = true ↔ i.toNat + x.toNat > 0x0FFF := by simp [indexOverflow]

theorem indexOverflow_carry8 (i : Word) (x : Byte) :
    indexOverflow .carry8 i x = true ↔ i.toNat % 256 + x.toNat > 0xFF := by simp [indexOverflow]

/-- VF after the conditional flag (R172). -/
theorem raiseFlagIf_reg_vf (s : State) (c : Bool) : (s.raiseFlagIf c).reg VF = if c = true then 1 else s.reg VF := by
  simp [State.raiseFlagIf_reg]

/-- Settles O39: I by the 16-bit sum, VF by the condition of the setting. -/
theorem addIndexWrapsAndMaySetTheFlag : Obligations.AddIndexWrapsAndMaySetTheFlag := by
  refine fun x s => ⟨encodes_of_layoutXNN_F 0x1E rfl, _, rfl, ?_, exec_frame (i := .addIndex x) rfl, fun hm => ?_,
    fun hm => ?_⟩
  · rw [State.raiseFlagIf_i, State.setIndex_i, BitVec.toNat_add, BitVec.toNat_setWidth_of_le (by decide)]
  · rw [raiseFlagIf_reg_vf, hm]
    exact if_congr (indexOverflow_range12 s.i (s.reg x)) rfl rfl
  · rw [raiseFlagIf_reg_vf, hm]
    exact if_congr (indexOverflow_carry8 s.i (s.reg x)) rfl rfl

/-! ### Random (R143) -/

/-- Naming the byte of a cycle, or clearing it, touches the model's random fields alone (log entry 1). -/
theorem setByte_frame (s : State) (r : Option Byte) : Frame noReg [.random] s { s with rnd := r } :=
  ⟨fun _ _ => rfl, fun p hp => by cases p <;> simp_all [Part.Same, State.readByte]⟩

/-- Settles O36: the byte drawn is the one named, and the write is its conjunction with NN. -/
theorem randomMasksTheHostsByte : Obligations.RandomMasksTheHostsByte := by
  refine fun x nn rnd s => ⟨encodes_of_encode_toNat (layoutXNN_toNat 0xC x nn), _, rfl, ?_, fun b _ => ?_⟩
  · exact ((setByte_frame s (some rnd)).trans (exec_frame (i := .random x nn) rfl)).mono
      (fun _ h => h.elim False.elim id) (by simp [partsWritten])
  · rw [State.setReg_reg_same]
    exact BitVec.getLsbD_and

/-- Settles O37: with no byte named the draw is the free value at the counter, which advances. -/
theorem randomDrawsAFreshFreeValue : Obligations.RandomDrawsAFreshFreeValue := by
  intro x nn s h
  have hbyte : s.randomByte = Config.randomByte s.draws := by simp [State.randomByte, h]
  have hdrawn : s.consumeRandom = { s with draws := s.draws + 1 } := by simp [State.consumeRandom, h]
  refine ⟨_, rfl, ?_, ?_, ?_, exec_frame (i := .random x nn) rfl⟩
  · rw [State.setReg_reg_same, hbyte]
  · rw [hdrawn]
    exact h
  · rw [hdrawn]
    rfl

/-! ### The key skips and set-sound (R194, R195, R199) -/

/-- The number of a word of group E, its selector first (R77, R82). -/
theorem encodes_of_layoutXNN_E {i : Instr} {x : RegIdx} (nn : Byte) (h : encode i = layoutXNN 0xE x nn) :
    Encodes i (0xE000 + nn.toNat + x.val * 256) := by
  refine encodes_of_encode_toNat ?_
  rw [h, layoutXNN_toNat]
  exact Nat.add_right_comm 0xE000 (x.val * 256) nn.toNat

/-- Settles O48: both are `skipIf`, on complementary conditions on the key of VX's low nibble. -/
theorem keySkipsTestTheLowNibble : Obligations.KeySkipsTestTheLowNibble := by
  intro x k s hk
  have hkey : s.keyDown x = s.keys[k.val] := by simp only [State.keyDown, lowNibble_val, hk]
  refine ⟨encodes_of_layoutXNN_E 0x9E rfl, encodes_of_layoutXNN_E 0xA1 rfl, ⟨_, rfl, skipIf_frame s _, ?_⟩,
    ⟨_, rfl, skipIf_frame s _, ?_⟩⟩
  · rw [State.skipIf_pc_toNat, hkey]
  · rw [State.skipIf_pc_toNat, hkey]
    cases s.keys[k.val] <;> rfl

/-- Settles O52: one write of ST, which SOUND_ON compares with 0. -/
theorem setSoundWritesTheSoundTimer : Obligations.SetSoundWritesTheSoundTimer := by
  refine fun x s => ⟨encodes_of_layoutXNN_F 0x18 rfl, _, rfl, rfl, ?_, setSound_frame s _⟩
  simp [State.soundOn, ← BitVec.toNat_inj]

/-! ### A draw undone (R193) -/

/-- The display after a draw, cell by cell. -/
theorem execDraw_pixel {x y : RegIdx} {n : RowCount} {s t : State} (h : execDraw x y n s = .next t) (r : Fin 32)
    (c : Fin 64) : t.display.pixel r c =
      (s.display.pixel r c != spriteBit s ((s.reg x).toNat % 64) ((s.reg y).toNat % 32) n.val r c) := by
  cases h
  exact s.drawRows_range_pixel _ _ n.val r c

/-- The sprite is read from memory at I alone. -/
theorem spriteBit_congr {s t : State} (hi : t.i = s.i) (hmem : ∀ a, t.readByte a = s.readByte a) (x0 y0 n : Nat)
    (r : Fin 32) (c : Fin 64) : spriteBit t x0 y0 n r c = spriteBit s x0 y0 n r c := by
  rw [spriteBit, hi, hmem, spriteBit]

/-- Settles O47: the second draw finds the same sprite at the same place, since neither register is VF, and XOR with one
bit twice is the cell. -/
theorem drawingTwiceRestoresTheDisplay : Obligations.DrawingTwiceRestoresTheDisplay := by
  intro x y n s hx hy
  obtain ⟨t, ht⟩ := exec_next (.draw x y n) s
  obtain ⟨u, hu⟩ := exec_next (.draw x y n) t
  obtain ⟨hreg, hpart⟩ := exec_frame ht
  refine ⟨t, u, ht, hu, Display.ext_pixel fun r c => ?_⟩
  rw [execDraw_pixel hu, execDraw_pixel ht, hreg x hx, hreg y hy,
    spriteBit_congr (hpart .i (by simp [partsWritten])) (hpart .mem (by simp [partsWritten]))]
  simp

/-! ### The host's actions (R230, R235) -/

theorem tickTimer_toNat (b : Byte) : (tickTimer b).toNat = b.toNat - 1 := by
  unfold tickTimer
  split <;> bv_omega

theorem tick_frame (s : State) : Frame noReg [.dt, .st] s s.tick :=
  ⟨fun _ _ => rfl, fun p hp => by cases p <;> simp_all [Part.Same]⟩

/-- Settles O54: each timer by `tickTimer_toNat`. -/
theorem tickStopsAtZero : Obligations.TickStopsAtZero := fun s =>
  ⟨_, rfl, tickTimer_toNat s.dt, tickTimer_toNat s.st, tick_frame s⟩

theorem setKeys_frame (s : State) (k : Keys) : Frame noReg [.keys] s { s with keys := k } :=
  ⟨fun _ _ => rfl, fun p hp => by cases p <;> simp_all [Part.Same, State.readByte]⟩

/-- Settles O55: each write is one field's, and STEP is the cycle with its byte, cleared after it. -/
theorem hostActionsChangeOnlyTheirOwn : Obligations.HostActionsChangeOnlyTheirOwn := by
  refine fun s => ⟨fun k => ⟨_, rfl, rfl, setKeys_frame s k⟩, fun d => ⟨_, rfl, rfl, setDisplay_frame s d⟩,
    fun b => ⟨_, rfl, rfl, setDelay_frame s b⟩, fun b => ⟨_, rfl, rfl, setSound_frame s b⟩, fun b => ?_⟩
  obtain ⟨u, hu⟩ := step_next { s with rnd := some b }
  exact ⟨_, u, stepWith_of_step hu, hu, rfl, rfl, rfl, setByte_frame u none⟩

end Sys2Proof.Machine

/-! PROOFS. RESET (R41, R250, R253). -/

namespace Sys2Proof.Machine

/-! ### The memory RESET lays (R250) -/

/-- Outside the font region an unlisted address reads as 0. -/
theorem background_outside {a : Nat} (h : ¬ (0x050 ≤ a ∧ a ≤ 0x09F)) : Memory.background a = 0 :=
  if_neg (mt inFontRegion_iff.mp h)

/-- Past the end of a list of bytes both readings give 0. -/
theorem getD_zero_eq_getElem! (xs : List Byte) (k : Nat) : xs.getD k 0 = xs[k]! := by
  rw [List.getD_eq_getElem?_getD, List.getElem!_eq_getElem?_getD]
  rfl

/-- Each byte of memory after RESET: the font's, the image's, or 0. -/
theorem resetMemory_cell (p : Config.Params) {image : List Byte} (himage : image.length ≤ 0xE00) (a : Nat) :
    (resetMemory p image).cell a =
      if 0x050 ≤ a ∧ a ≤ 0x09F then p.font[a - 0x050]!
      else if 0x200 ≤ a ∧ a < 0x200 + image.length then image[a - 0x200]!
      else 0 := by
  have hlen : p.font.toList.length = 80 := p.font.length_toList
  rw [resetMemory, Memory.cell_lay (Memory.wf_lay rfl _ _) 0x200 image (by omega),
    Memory.cell_lay rfl 0x050 p.font.toList (by omega), hlen]
  by_cases hfont : 0x050 ≤ a ∧ a ≤ 0x09F
  · have hlt : a - 0x050 < 80 := by omega
    rw [if_neg (by omega), if_pos (by omega), if_pos hfont, getElem!_pos p.font (a - 0x050) hlt,
      getD_zero_eq_getElem!, getElem!_pos p.font.toList (a - 0x050) (by omega), Vector.getElem_toList]
  · rw [if_neg hfont]
    by_cases hin : 0x200 ≤ a ∧ a < 0x200 + image.length
    · rw [if_pos hin, if_pos hin]
      exact getD_zero_eq_getElem! image _
    · rw [if_neg hin, if_neg hin, if_neg (by omega)]
      exact background_outside hfont

/-- A memory that the port reads below 4096 as its cell. -/
theorem State.readByte_of_lt (s : State) {a : Nat} (h : a < 4096) : s.readByte a = s.mem.cell a := by
  rw [State.readByte, portAddr_of_lt h]

/-- The three bits of CFG, each at its place, are CFG (R31). -/
theorem Cfg.toBits_ofBits (b : BitVec 3) : (Cfg.ofBits b).toBits = b := by
  revert b
  decide

/-- Settles O53: the state `construct` builds, its memory by `resetMemory_cell`. -/
theorem resetBuildsTheInitialState : Obligations.ResetBuildsTheInitialState := by
  refine ⟨fun cfg image s h => ?_, fun cfg image s h => ?_, ?_⟩
  · refine ⟨_, if_pos (decide_eq_true h), fun k => ?_, rfl, rfl, rfl, rfl, rfl, fun a ha => ?_, Display.blank_pixel,
      fun k => ?_, rfl, rfl, rfl, Cfg.toBits_ofBits cfg, rfl, rfl, rfl, rfl, rfl, rfl⟩
    · exact Vector.getElem_replicate _
    · rw [State.readByte_of_lt _ ha]
      exact resetMemory_cell s.params h a
    · exact Vector.getElem_replicate _
  · exact if_neg (by simpa [imageWf] using h)
  · rfl

end Sys2Proof.Machine

/-! PROOFS. The assembly of R83 and R84: operands by the format of their mnemonic, the instruction they stand for, and
the one word it assembles to. -/

namespace Sys2Proof.Machine

/-! ### Well-formed operands, format by format (R73, R83) -/

section
variable {ops : List AsmOperand}

theorem operandsWf_fixed (h : operandsWf .fixed ops = true) : ops = [] := by
  unfold operandsWf at h
  split at h <;> simp_all

theorem operandsWf_nnn (h : operandsWf .nnn ops = true) (hl : noLabel ops) : ∃ a, ops = [.num a] ∧ a < 4096 := by
  unfold operandsWf at h
  split at h <;> simp_all [noLabel]

theorem operandsWf_xnn (h : operandsWf .xnn ops = true) :
    ∃ x nn, ops = [.reg x, .num nn] ∧ x < 16 ∧ nn < 256 := by
  unfold operandsWf at h
  split at h <;> simp_all

/-- The formats `XY` and `XYS` both take two registers. -/
theorem operandsWf_two_regs {f : Format} (hf : f = .xy ∨ f = .xys) (h : operandsWf f ops = true) :
    ∃ x y, ops = [.reg x, .reg y] ∧ x < 16 ∧ y < 16 := by
  unfold operandsWf at h
  split at h <;> simp_all

theorem operandsWf_xyn (h : operandsWf .xyn ops = true) :
    ∃ x y n, ops = [.reg x, .reg y, .num n] ∧ x < 16 ∧ y < 16 ∧ n < 16 := by
  unfold operandsWf at h
  split at h <;> simp_all

theorem operandsWf_xs (h : operandsWf .xs ops = true) : ∃ x, ops = [.reg x] ∧ x < 16 := by
  unfold operandsWf at h
  split at h <;> simp_all

end

theorem regNum_val {k : Nat} (h : k < 16) : (regNum k).val = k := Nat.mod_eq_of_lt h

/-! ### The instruction of a line -/

/-- The operands stand for an instruction of the mnemonic, whose word is the mnemonic's with the operands in their
fields. -/
def StandsFor (m : Mnemonic) (ops : List AsmOperand) : Prop :=
  ∃ i, toInstr m ops = some i ∧ i.mnemonic = m ∧ (encode i).toNat = m.matchBits.toNat + operandBits ops

/-- Well-formed operands without a label stand for an instruction: the format fixes their shape, and each is its field's
number. -/
theorem toInstr_standsFor {m : Mnemonic} {ops : List AsmOperand} (h : operandsWf m.format ops = true)
    (hl : noLabel ops) : StandsFor m ops := by
  cases m with
  | clear | ret =>
    cases operandsWf_fixed h
    exact ⟨_, rfl, rfl, rfl⟩
  | jump | call | setIndex | jumpOffset =>
    obtain ⟨a, rfl, ha⟩ := operandsWf_nnn h hl
    refine ⟨_, if_pos h, rfl, ?_⟩
    rw [encode, layoutNNN_toNat, BitVec.toNat_ofNat, Nat.mod_eq_of_lt ha]
    rfl
  | skipEqImm | skipNeqImm | setImm | addImm | random =>
    obtain ⟨x, nn, rfl, hx, hnn⟩ := operandsWf_xnn h
    refine ⟨_, if_pos h, rfl, ?_⟩
    rw [encode, layoutXNN_toNat, regNum_val hx, BitVec.toNat_ofNat, Nat.mod_eq_of_lt hnn, Nat.add_assoc]
    rfl
  | skipEq | skipNeq | set | or | and | xor | add | sub | shiftRight | subYx | shiftLeft =>
    obtain ⟨x, y, rfl, hx, hy⟩ := operandsWf_two_regs (by decide) h
    refine ⟨_, if_pos h, rfl, ?_⟩
    rw [encode, layoutXYN_toNat, regNum_val hx, regNum_val hy]
    simp only [BitVec.ofNat_eq_ofNat, BitVec.toNat_ofNat, Mnemonic.matchBits, operandBits]
    omega
  | draw =>
    obtain ⟨x, y, n, rfl, hx, hy, hn⟩ := operandsWf_xyn h
    refine ⟨_, if_pos h, rfl, ?_⟩
    rw [encode, layoutXYN_toNat, regNum_val hx, regNum_val hy, toNibble_toNat, regNum_val hn]
    simp only [BitVec.ofNat_eq_ofNat, BitVec.toNat_ofNat, Mnemonic.matchBits, operandBits]
    omega
  | skipIfKey | skipIfNotKey | getDelay | waitKey | setDelay | setSound | addIndex | fontChar | bcd | store | load =>
    obtain ⟨x, rfl, hx⟩ := operandsWf_xs h
    refine ⟨_, if_pos h, rfl, ?_⟩
    rw [encode, layoutXNN_toNat, regNum_val hx]
    simp only [BitVec.ofNat_eq_ofNat, BitVec.toNat_ofNat, Mnemonic.matchBits, operandBits]
    omega

/-! ### The word of a line -/

/-- Operands without a label stand as they are, whatever the labels stand for. -/
theorem mapM_resolveOperand_of_noLabel (table : List (String × Nat)) {ops : List AsmOperand} (h : noLabel ops) :
    ops.mapM (resolveOperand table) = some ops := by
  induction ops with
  | nil => rfl
  | cons op ops ih =>
    have hop : resolveOperand table op = some op := by
      cases op with
      | label name => exact absurd List.mem_cons_self (h name)
      | _ => rfl
    have hrest : ops.mapM (resolveOperand table) = some ops := ih fun name hn => h name (List.mem_cons_of_mem op hn)
    simp [hop, hrest]

/-- A line whose operands, labels replaced, stand for an instruction is that instruction's two bytes, high byte
first. -/
theorem assembleLine_of_toInstr {table : List (String × Nat)} {m : Mnemonic} {ops args : List AsmOperand} {i : Instr}
    (hwf : operandsWf m.format ops = true) (hargs : ops.mapM (resolveOperand table) = some args)
    (hi : toInstr m args = some i) :
    assembleLine table (.instr m ops) = some [highByte (encode i), lowByte (encode i)] := by
  have hline : AsmLine.wf (.instr m ops) = true := hwf
  simp [assembleLine, hline, hargs, hi, encodeBytes]

/-- Settles O57: the instruction by the mnemonic's format, its word from its two bytes; a label is first replaced by its
address. -/
theorem eachMnemonicAssemblesToOneWord : Obligations.EachMnemonicAssemblesToOneWord := by
  refine ⟨fun m ops hwf hl => ?_, fun m table name a hf hfind ha => ?_⟩
  · obtain ⟨i, hi, hm, hnum⟩ := toInstr_standsFor hwf hl
    have hargs (table) := mapM_resolveOperand_of_noLabel table hl
    refine ⟨i, hi, hm, fun table => ⟨_, _, assembleLine_of_toInstr hwf (hargs table) hi, ?_⟩⟩
    rw [wordOfBytes_high_low]
    exact ⟨decode_encode i, hnum⟩
  · have hwf : operandsWf m.format [.label name] = true := by rw [hf]; rfl
    have hwf' : operandsWf m.format [.num a] = true := by rw [hf]; exact decide_eq_true ha
    have hargs : [AsmOperand.label name].mapM (resolveOperand table) = some [.num a] := by
      simp [resolveOperand, hfind]
    obtain ⟨i, hi, -, hnum⟩ := toInstr_standsFor hwf' (by simp [noLabel])
    refine ⟨_, _, assembleLine_of_toInstr hwf hargs hi, ?_⟩
    rw [wordOfBytes_high_low]
    exact hnum

end Sys2Proof.Machine

/-! PROOFS. Cycles that repeat themselves (R109, R196) and the ends of a run (R255). -/

namespace Sys2Proof.Machine

/-! ### Fixed points of the cycle -/

/-- No cycle reads DC (log entry 3). -/
theorem step_setDc (s : State) (b : Bool) : step (s.setDc b) = step s := rfl

theorem run_succ_of_step {s t : State} (h : step s = .next t) (n : Nat) :
    Host.Core.run core (n + 1) s = Host.Core.run core n t := by
  have hstep : core.step s = .next t := h
  simp only [Host.Core.run, hstep]

/-- A cycle that changes nothing but DC is repeated by every later one. -/
theorem run_of_fixed {s : State} (h : step s = .next (s.setDc false)) (n : Nat) :
    Host.Core.run core (n + 1) s = .next (s.setDc false) := by
  have hagain : step (s.setDc false) = .next (s.setDc false) := (step_setDc s false).trans h
  rw [run_succ_of_step h]
  induction n with
  | zero => rfl
  | succ n ih => exact (run_succ_of_step hagain n).trans ih

/-- A word whose number is made up as `NNN` makes it up is that layout (R72). -/
theorem eq_layoutNNN_of_toNat {w : Word} {op : BitVec 4} {a : Nat} (ha : a ≤ 0xFFF)
    (h : w.toNat = op.toNat * 4096 + a) : w = layoutNNN op (BitVec.ofNat 12 a) := by
  apply BitVec.eq_of_toNat_eq
  rw [layoutNNN_toNat, BitVec.toNat_ofNat, Nat.mod_eq_of_lt (by omega), h]

/-- The words of a jump and of a call (R102, R103). -/
theorem decode_jump_of_toNat {w : Word} {a : Nat} (ha : a ≤ 0xFFF) (h : w.toNat = 0x1000 + a) :
    decode w = .ok (.jump (BitVec.ofNat 12 a)) :=
  eq_layoutNNN_of_toNat (op := 0x1) ha h ▸ decode_encode (.jump (BitVec.ofNat 12 a))

theorem decode_call_of_toNat {w : Word} {a : Nat} (ha : a ≤ 0xFFF) (h : w.toNat = 0x2000 + a) :
    decode w = .ok (.call (BitVec.ofNat 12 a)) :=
  eq_layoutNNN_of_toNat (op := 0x2) ha h ▸ decode_encode (.call (BitVec.ofNat 12 a))

/-- The address operand of a word that names PC is PC. -/
theorem zext16_ofNat_toNat {w : Word} (h : w.toNat ≤ 0xFFF) : zext16 (BitVec.ofNat 12 w.toNat) = w := by
  apply BitVec.eq_of_toNat_eq
  rw [zext16_toNat, BitVec.toNat_ofNat, Nat.mod_eq_of_lt (by omega)]

/-- A state with PC set back over the fetch is the state before it, but for DC. -/
theorem afterFetch_setPc (s : State) : s.afterFetch.setPc s.pc = s.setDc false := rfl

/-- The cycle of a jump to itself (R109). -/
theorem step_of_selfJump {s : State} (hs : s.halted = false) (hpc : s.pc.toNat ≤ 0xFFF)
    (hw : s.fetchWord.toNat = 0x1000 + s.pc.toNat) : step s = .next (s.setDc false) := by
  rw [step_of_decode_ok hs (decode_jump_of_toNat hpc hw), exec, execJump, zext16_ofNat_toNat hpc, afterFetch_setPc]

/-- Settles O20: the cycle changes nothing but DC. -/
theorem selfJumpIsAFixedPoint : Obligations.SelfJumpIsAFixedPoint :=
  fun _ hs hpc hw => run_of_fixed (step_of_selfJump hs hpc hw)

/-- The cycle of a wait-key with no key pressed (R196). -/
theorem step_of_waitKey {s : State} {x : RegIdx} (hs : s.halted = false) (hd : decode s.fetchWord = .ok (.waitKey x))
    (hup : ∀ k : Fin 16, s.keys[k.val] = false) : step s = .next (s.setDc false) := by
  have hnone : s.afterFetch.firstKey = none := State.firstKey_eq_none.mpr hup
  rw [step_of_decode_ok hs hd, exec, execWaitKey_of_firstKey_none hnone, State.afterFetch_pc, BitVec.add_sub_cancel,
    afterFetch_setPc]

/-- Settles O50: the cycle changes nothing but DC. -/
theorem waitKeySpinsUntilAKey : Obligations.WaitKeySpinsUntilAKey :=
  fun _ _ hs hd hup => run_of_fixed (step_of_waitKey hs hd hup)

/-! ### What lasts through a run without RESET (R255) -/

/-- An action of a host that does no RESET is none. -/
theorem HostBehaviour.NoReset.notReset {acts : HostBehaviour} (hn : acts.NoReset) {n : Nat} {a : HostAction}
    (ha : acts n = some a) : Machine.notReset a := by
  cases a with
  | reset cfg image => exact absurd ha (hn n cfg image)
  | _ => trivial

/-- What every host action but RESET keeps, holds at every moment from the first it holds at. -/
theorem runAfter_lasts {acts : HostBehaviour} {s : State} (hn : acts.NoReset) (P : State → Prop)
    (keep : ∀ a t u, notReset a → P t → hostAct a t = .next u → P u) {n m : Nat} {t : State}
    (h : runAfter acts s n = .next t) (ht : P t) (hm : n ≤ m) : ∃ u, runAfter acts s m = .next u ∧ P u := by
  refine runAfter_keeps P (fun k a w ha hw => ?_) ⟨t, h, ht⟩ m hm
  obtain ⟨u, hu⟩ := hostAct_next (hn.notReset ha) w
  exact ⟨u, hu, keep a w u (hn.notReset ha) hw hu⟩

/-- A self-jump as a number (R109). -/
theorem atSelfJump_iff {s : State} :
    s.atSelfJump = true ↔ s.halted = false ∧ s.pc.toNat ≤ 0xFFF ∧ s.fetchWord.toNat = 0x1000 + s.pc.toNat := by
  have hor (h : s.pc.toNat ≤ 0xFFF) : (0x1000 ||| s.pc).toNat = 0x1000 + s.pc.toNat := by
    rw [BitVec.toNat_or]
    exact (Nat.two_pow_add_eq_or_of_lt (i := 12) (by omega) 1).symm
  rw [State.atSelfJump, Bool.and_eq_true, Bool.and_eq_true, Bool.not_eq_true', decide_eq_true_iff, beq_iff_eq,
    ← BitVec.toNat_inj, and_assoc]
  exact and_congr_right fun _ => and_congr_right fun hpc => by rw [hor hpc]

theorem hostAct_keeps_selfJump {a : HostAction} {s t : State} (ha : notReset a) (hs : s.atSelfJump = true)
    (h : hostAct a s = .next t) : t.atSelfJump = true := by
  cases a with
  | reset => exact ha.elim
  | step b =>
    obtain ⟨hh, hpc, hw⟩ := atSelfJump_iff.mp hs
    have hstep : step { s with rnd := some b } = .next _ := step_of_selfJump (s := { s with rnd := some b }) hh hpc hw
    rw [stepWith_of_step hstep] at h
    cases h
    exact hs
  | _ =>
    cases h
    exact hs

/-- No host action but RESET ends the halt (R223). -/
theorem hostAct_keeps_halted {a : HostAction} {s t : State} (ha : notReset a) (hs : s.halted = true)
    (h : hostAct a s = .next t) : t.halted = true :=
  (halted_of_fault_eq (hostAct_frozen ha hs h).fault).trans hs

/-- A run that halts never stands at a self-jump, before or after: each of the two ends lasts. -/
theorem not_reaches_both {acts : HostBehaviour} {s : State} (hn : acts.NoReset) (hh : Reaches acts s .halted)
    (hj : Reaches acts s .selfJump) : False := by
  obtain ⟨n, t, ht, hth⟩ := hh
  obtain ⟨m, u, hu, huj⟩ := hj
  obtain ⟨v, hv, hvh⟩ := runAfter_lasts hn (·.halted = true) (fun _ _ _ => hostAct_keeps_halted) ht
    (State.runEnd_halted.mp hth) (Nat.le_max_left n m)
  obtain ⟨w, hw, hwj⟩ := runAfter_lasts hn (·.atSelfJump = true) (fun _ _ _ => hostAct_keeps_selfJump) hu
    (State.runEnd_selfJump.mp huj) (Nat.le_max_right n m)
  cases hv.symm.trans hw
  have := (atSelfJump_iff.mp hwj).1
  simp_all

/-- Settles O58: the two lasting ends exclude each other, and a run that reaches neither is cut off or hangs by whether
the host keeps requesting STEP. -/
theorem everyRunEndsInOneWayOrHangs : Obligations.EveryRunEndsInOneWayOrHangs := by
  intro acts s hn
  by_cases hh : Reaches acts s .halted
  · refine ⟨some .halted, hh, fun v hv => ?_⟩
    match v, hv with
    | some .halted, _ => rfl
    | some .selfJump, hj => exact (not_reaches_both hn hh hj).elim
    | some .cutOff, hc => exact absurd hh hc.1.1
    | none, hg => exact absurd hh hg.2.1
  by_cases hj : Reaches acts s .selfJump
  · refine ⟨some .selfJump, hj, fun v hv => ?_⟩
    match v, hv with
    | some .halted, hh' => exact absurd hh' hh
    | some .selfJump, _ => rfl
    | some .cutOff, hc => exact absurd hj hc.1.2
    | none, hg => exact absurd hj hg.2.2
  by_cases hk : acts.KeepsStepping
  · refine ⟨none, ⟨hk, hh, hj⟩, fun v hv => ?_⟩
    match v, hv with
    | some .halted, hh' => exact absurd hh' hh
    | some .selfJump, hj' => exact absurd hj' hj
    | some .cutOff, hc => exact absurd hk hc.2
    | none, _ => rfl
  · refine ⟨some .cutOff, ⟨⟨hh, hj⟩, hk⟩, fun v hv => ?_⟩
    match v, hv with
    | some .halted, hh' => exact absurd hh' hh
    | some .selfJump, hj' => exact absurd hj' hj
    | some .cutOff, _ => rfl
    | none, hg => exact absurd hg.1 hk

/-! ### The two hangs R255 names -/

/-- A property that every action of the host keeps, and that no state at an end has, keeps the run from ending. -/
theorem unfinished_of_invariant {acts : HostBehaviour} {s : State} (P : State → Prop) (hs : P s)
    (keep : ∀ n a t, acts n = some a → P t → ∃ u, hostAct a t = .next u ∧ P u)
    (hend : ∀ t, P t → t.runEnd = none) : Unfinished acts s := by
  have hno (e : RunEnd) : ¬ Reaches acts s e := by
    rintro ⟨n, t, ht, he⟩
    obtain ⟨u, hu, hp⟩ := runAfter_keeps P keep (n := 0) ⟨s, rfl, hs⟩ n (Nat.zero_le n)
    cases ht.symm.trans hu
    simp [hend t hp] at he
  exact ⟨hno .halted, hno .selfJump⟩

/-- A core that is not halted and whose word is no jump shows no end. -/
theorem runEnd_eq_none {s : State} {i : Instr} (hs : s.halted = false) (hd : decode s.fetchWord = .ok i)
    (hi : ∀ nnn, i ≠ .jump nnn) : s.runEnd = none := by
  have hjump : s.atSelfJump = false := by
    by_contra hne
    obtain ⟨-, hpc, hw⟩ := atSelfJump_iff.mp (Bool.of_not_eq_false hne)
    cases hd.symm.trans (decode_jump_of_toNat hpc hw)
    exact hi _ rfl
  simp [State.runEnd, hs, hjump]

/-- The core waits for a key and none is pressed. -/
structure Waiting (x : RegIdx) (s : State) : Prop where
  running : s.halted = false
  word : decode s.fetchWord = .ok (.waitKey x)
  keysUp : ∀ k : Fin 16, s.keys[k.val] = false

/-- A wait goes on through every action but RESET and the write of a pressed key. -/
theorem hostAct_keeps_waiting {x : RegIdx} {a : HostAction} {s : State} (ha : notReset a)
    (hkeys : ∀ keys, a = .keysWr keys → ∀ k : Fin 16, keys[k.val] = false) (hs : Waiting x s) :
    ∃ t, hostAct a s = .next t ∧ Waiting x t := by
  obtain ⟨hrun, hword, hup⟩ := hs
  cases a with
  | reset => exact ha.elim
  | step b =>
    have hstep := step_of_waitKey (s := { s with rnd := some b }) hrun hword hup
    exact ⟨_, stepWith_of_step hstep, hrun, hword, hup⟩
  | keysWr keys => exact ⟨_, rfl, hrun, hword, hkeys keys rfl⟩
  | _ => exact ⟨_, rfl, hrun, hword, hup⟩

/-- The core stands at a call to its own address, with S unbounded. -/
structure CallsItself (s : State) : Prop where
  running : s.halted = false
  unbounded : s.params.stackDepth = none
  pc_le : s.pc.toNat ≤ 0xFFF
  word : s.fetchWord.toNat = 0x2000 + s.pc.toNat

/-- The cycle of a call to itself pushes the address after it and stays where it is (R103). -/
theorem step_of_callsItself {s : State} (hs : CallsItself s) :
    step s = .next ((s.push (s.pc + 2)).setDc false) := by
  have hfull : s.afterFetch.params.stackDepth ≠ some s.afterFetch.stack.length := by simp [hs.unbounded]
  rw [step_of_decode_ok hs.running (decode_call_of_toNat hs.pc_le hs.word), exec, execCall_of_not_full hfull,
    zext16_ofNat_toNat hs.pc_le]
  rfl

/-- A recursion goes on through every action but RESET. -/
theorem hostAct_keeps_callsItself {a : HostAction} {s : State} (ha : notReset a) (hs : CallsItself s) :
    ∃ t, hostAct a s = .next t ∧ CallsItself t := by
  cases a with
  | reset => exact ha.elim
  | step b =>
    have hstep := step_of_callsItself (s := { s with rnd := some b }) ⟨hs.running, hs.unbounded, hs.pc_le, hs.word⟩
    exact ⟨_, stepWith_of_step hstep, hs.running, hs.unbounded, hs.pc_le, hs.word⟩
  | _ => exact ⟨_, rfl, hs.running, hs.unbounded, hs.pc_le, hs.word⟩

/-- Settles O59: the wait and the recursion each go on for ever, and neither is at an end. -/
theorem unreleasedWaitAndEndlessRecursionHang : Obligations.UnreleasedWaitAndEndlessRecursionHang := by
  refine ⟨fun x acts s hn hk hrun hd hup hkeys => ⟨hk, ?_⟩, fun acts s hn hk hrun hdepth hpc hw => ⟨hk, ?_⟩⟩
  · refine unfinished_of_invariant (Waiting x) ⟨hrun, hd, hup⟩ (fun n a t ha ht => ?_)
      fun t ht => runEnd_eq_none ht.running ht.word (by simp)
    exact hostAct_keeps_waiting (hn.notReset ha) (fun keys e => hkeys n keys (e ▸ ha)) ht
  · exact unfinished_of_invariant CallsItself ⟨hrun, hdepth, hpc, hw⟩
      (fun _ _ _ ha ht => hostAct_keeps_callsItself (hn.notReset ha) ht)
      fun t ht => runEnd_eq_none ht.running (decode_call_of_toNat ht.pc_le ht.word) (by simp)

end Sys2Proof.Machine
